-- ==== Sys2Proof/Word.lean ====
section
/-! DEFINITION. The word types of the CRC engine (00_scope.md sections 5.1 and 4: every value is an unsigned integer of
a stated width). -/

namespace Sys2Proof

/-- A 32-bit register, operand or data word (`REG_BITS`, 00_scope.md R7). -/
abbrev Word := BitVec 32

/-- One message byte (00_scope.md R6). -/
abbrev Byte := BitVec 8

/-- A command word, `CMD_BITS` = 40 (00_scope.md R7, 30_encoding.md R45). -/
abbrev CmdWord := BitVec 40

/-- A response word, `RSP_BITS` = 36 (00_scope.md R7, 30_encoding.md R46). -/
abbrev RspWord := BitVec 36

end Sys2Proof
end

