-- ==== Sys2Proof/Config.lean ====
section
/-! DEFINITION. The parameters of 00_scope.md R7: those the spec fixes, and the two it leaves open, which have no value
here. -/

namespace Sys2Proof.Config

/-- `MAX_WIDTH` (00_scope.md R6, R7). -/
def maxWidth : Nat := 32

/-- `MIN_WIDTH` (00_scope.md R7). -/
def minWidth : Nat := 1

/-- FREE VALUE, safe (log entry 6, DESIGN CHOICE). How many cycles beyond the one that is the least pass between the
acceptance of a command with this opcode and its response; the spec leaves the number open (70_reset_and_hazards.md
R117). -/
opaque lat : BitVec 8 → Nat

/-- `LAT(op)`, finite and at least 1 (00_scope.md R7, 30_encoding.md R44, 70_reset_and_hazards.md R117). -/
def latency (op : BitVec 8) : Nat := lat op + 1

/-- FREE VALUE, safe (log entry 12, DESIGN CHOICE). `BASE_ADDR`, where a platform maps the command port, if it maps it
at all (20_memory.md R32); no rule of the spec reads it. -/
opaque baseAddr : Option Nat

end Sys2Proof.Config
end

