-- ==== Sys2Proof/Syntax.lean ====
section
/-! DEFINITION. The 17 commands of RLCRC-1 (30_encoding.md R48), one constructor per row of spec/opcode_table.json. -/

namespace Sys2Proof

/-- A command: what the opcode selects, with the whole 32-bit operand `arg`, since a bad operand is a failure of the
command the opcode selected (30_encoding.md R48, last paragraph). -/
inductive Instr where
  | nop (arg : Word)
  | srst (arg : Word)
  | setw (arg : Word)
  | setp (arg : Word)
  | seti (arg : Word)
  | setx (arg : Word)
  | setr (arg : Word)
  | getw (arg : Word)
  | getp (arg : Word)
  | geti (arg : Word)
  | getx (arg : Word)
  | getr (arg : Word)
  | gets (arg : Word)
  | getres (arg : Word)
  | start (arg : Word)
  | pushb (arg : Word)
  | finish (arg : Word)
  deriving DecidableEq, Repr

end Sys2Proof
end

