-- ==== Sys2Proof/WellFormed.lean ====
section
/-! DEFINITION. Which operands a command's form admits, as number ranges (60_exceptions.md R94). The machine's own check
is over bits, as the pseudocode writes it (Machine/Operands.lean); that the two agree is a statement. -/

namespace Sys2Proof

/-- The five operand forms (30_encoding.md R47). -/
inductive Form where
  | a0 | aw | a32 | ar | ab
  deriving DecidableEq, Repr

/-- The operands a form admits (30_encoding.md R47; the ranges as 60_exceptions.md R94 sums them up). -/
def Form.legal : Form → Word → Bool
  | .a0, arg => arg.toNat == 0
  | .aw, arg => Config.minWidth ≤ arg.toNat && arg.toNat ≤ Config.maxWidth
  | .a32, _ => true
  | .ar, arg => arg.toNat ≤ 3
  | .ab, arg => arg.toNat ≤ 255

/-- The form of each command (30_encoding.md R48). -/
def Instr.form : Instr → Form
  | .nop _ => .a0
  | .srst _ => .a0
  | .setw _ => .aw
  | .setp _ => .a32
  | .seti _ => .a32
  | .setx _ => .a32
  | .setr _ => .ar
  | .getw _ => .a0
  | .getp _ => .a0
  | .geti _ => .a0
  | .getx _ => .a0
  | .getr _ => .a0
  | .gets _ => .a0
  | .getres _ => .a0
  | .start _ => .a0
  | .pushb _ => .ab
  | .finish _ => .a0

/-- The operand of a command. -/
def Instr.arg : Instr → Word
  | .nop arg => arg
  | .srst arg => arg
  | .setw arg => arg
  | .setp arg => arg
  | .seti arg => arg
  | .setx arg => arg
  | .setr arg => arg
  | .getw arg => arg
  | .getp arg => arg
  | .geti arg => arg
  | .getx arg => arg
  | .getr arg => arg
  | .gets arg => arg
  | .getres arg => arg
  | .start arg => arg
  | .pushb arg => arg
  | .finish arg => arg

/-- A command whose operand fits its form (30_encoding.md R47). -/
def Instr.wf (i : Instr) : Bool := i.form.legal i.arg

end Sys2Proof
end

