-- ==== Sys2Proof/Decode.lean ====
section
/-! DEFINITION. The decoder (30_encoding.md R45, R48, R49 step 1), total on every 40-bit word, and after it the encoder,
written from the opcode map of R48. -/

namespace Sys2Proof

/-- `op = cmd[39:32]` (30_encoding.md R45). -/
def opField (w : CmdWord) : BitVec 8 := w.extractLsb' 32 8

/-- `arg = cmd[31:0]` (30_encoding.md R45). -/
def argField (w : CmdWord) : Word := w.extractLsb' 0 32

/-- A row of the opcode map: opcode, mnemonic, and the command it selects for an operand. -/
structure Row where
  opcode : BitVec 8
  mnemonic : String
  make : Word → Instr

/-- The opcode map (30_encoding.md R48). -/
def opcodeTable : List Row :=
  [ ⟨0x00, "NOP", .nop⟩, ⟨0x01, "SRST", .srst⟩ ] ++
  [ ⟨0x10, "SETW", .setw⟩, ⟨0x11, "SETP", .setp⟩, ⟨0x12, "SETI", .seti⟩, ⟨0x13, "SETX", .setx⟩,
    ⟨0x14, "SETR", .setr⟩ ] ++
  [ ⟨0x20, "GETW", .getw⟩, ⟨0x21, "GETP", .getp⟩, ⟨0x22, "GETI", .geti⟩, ⟨0x23, "GETX", .getx⟩,
    ⟨0x24, "GETR", .getr⟩, ⟨0x25, "GETS", .gets⟩, ⟨0x26, "GETRES", .getres⟩ ] ++
  [ ⟨0x30, "START", .start⟩, ⟨0x31, "PUSHB", .pushb⟩, ⟨0x32, "FINISH", .finish⟩ ]

/-- What a command word decodes to: a command, or a reserved opcode, which is answered with `ERR_OP` (30_encoding.md
R50). -/
inductive Decoded where
  | instr (i : Instr)
  | reservedOpcode (op : BitVec 8)
  deriving DecidableEq, Repr

/-- Step 1 of 30_encoding.md R49: look `op` up in the opcode map. Operand bits never select a command. -/
def decode (w : CmdWord) : Decoded :=
  match opcodeTable.find? (fun r => r.opcode == opField w) with
  | some r => .instr (r.make (argField w))
  | none => .reservedOpcode (opField w)

/-- The opcode of each command (30_encoding.md R48). -/
def Instr.opcode : Instr → BitVec 8
  | .nop _ => 0x00
  | .srst _ => 0x01
  | .setw _ => 0x10
  | .setp _ => 0x11
  | .seti _ => 0x12
  | .setx _ => 0x13
  | .setr _ => 0x14
  | .getw _ => 0x20
  | .getp _ => 0x21
  | .geti _ => 0x22
  | .getx _ => 0x23
  | .getr _ => 0x24
  | .gets _ => 0x25
  | .getres _ => 0x26
  | .start _ => 0x30
  | .pushb _ => 0x31
  | .finish _ => 0x32

/-- The command word of a command, the opcode in the high byte and the operand below it (30_encoding.md R45). -/
def encode (i : Instr) : CmdWord := i.opcode ++ i.arg

/-- What an assembler answers: it refuses an operand that does not fit its form (30_encoding.md R53). -/
def assemble (i : Instr) : Option CmdWord := if i.wf then some (encode i) else none

/-- The word whose low `nbits` bits are those of `w`, if it is one command word (log entry 14). -/
def tableWord (nbits w : Nat) : Option CmdWord :=
  if w % 2 ^ nbits < 2 ^ 40 then some (BitVec.ofNat 40 (w % 2 ^ nbits)) else none

/-- The decoder on a word numbered as spec/opcode_table.json numbers it: one 40-bit word, `op` at bits 39:32. -/
def decodeTableWord (nbits w : Nat) : Option Instr :=
  match tableWord nbits w with
  | none => none
  | some c =>
    match decode c with
    | .instr i => some i
    | .reservedOpcode _ => none

end Sys2Proof
end

