-- ==== Sys2Proof/Machine/Crc.lean ====
section
/-! DEFINITION. The functions of the checksum (41_compute.md R68 to R76). The width is a number; the rules use them for
widths 1 to 32 only (10_state.md R17, log entry 11). -/

namespace Sys2Proof.Machine.Crc

/-- `mask(W) = 2^W - 1` (41_compute.md R68). -/
def mask (W : Nat) : Word := BitVec.ofNat 32 (2 ^ W - 1)

/-- The loop of `reflect_n` after its first `k` rounds: round `i` gives the result's bit `n-1-i` the value `v[i]`. -/
def reflectLoop (n : Nat) (v : Word) : Nat → Word
  | 0 => 0
  | i + 1 =>
    if v.getLsbD i then reflectLoop n v i ||| (1#32 <<< (n - 1 - i)) else reflectLoop n v i

/-- `reflect_n(v)` reverses the low `n` bits (41_compute.md R69). -/
def reflect (n : Nat) (v : Word) : Word := reflectLoop n v n

/-- `crc_step(W, P, a, b)` absorbs one message bit (41_compute.md R70). -/
def crcStep (W : Nat) (P a : Word) (b : Bool) : Word :=
  let fb := a.getLsbD (W - 1) ^^ b
  let t := (a <<< 1) &&& mask W
  if fb then t ^^^ (P &&& mask W) else t

/-- The byte as it is absorbed, reflected or not, zero-extended (41_compute.md R71). -/
def inputByte (rin : Bool) (d : Byte) : Word :=
  if rin then reflect 8 (d.setWidth 32) else d.setWidth 32

/-- Absorbing the low `k` bits of `e`, bit `k-1` first and bit 0 last. -/
def absorbBits (W : Nat) (P e : Word) : Nat → Word → Word
  | 0, a => a
  | k + 1, a => absorbBits W P e k (crcStep W P a (e.getLsbD k))

/-- `absorb_byte(W, P, rin, a, d)`: bit 7 first, bit 0 last (41_compute.md R71). -/
def absorbByte (W : Nat) (P : Word) (rin : Bool) (a : Word) (d : Byte) : Word :=
  absorbBits W P (inputByte rin d) 8 a

/-- `finalize(W, X, rout, a)`: final XOR, then output reflection, then the mask (41_compute.md R72, R85). -/
def finalize (W : Nat) (X : Word) (rout : Bool) (a : Word) : Word :=
  let r := a ^^^ (X &&& mask W)
  (if rout then reflect W r else r) &&& mask W

/-- A parameter set `(W, P, I, X, rin, rout)` (41_compute.md R73, 00_scope.md R6). -/
structure Params where
  width : Nat
  poly : Word
  init : Word
  xorout : Word
  refin : Bool
  refout : Bool
  deriving DecidableEq, Repr

/-- The running CRC after a message, from the register value `a`. -/
def absorb (p : Params) (a : Word) (m : List Byte) : Word :=
  m.foldl (absorbByte p.width p.poly p.refin) a

/-- `checksum(p, m)` (41_compute.md R73). -/
def checksum (p : Params) (m : List Byte) : Word :=
  finalize p.width p.xorout p.refout (absorb p (p.init &&& mask p.width) m)

/-- `n` single-bit steps with message bit 0. -/
def steps (W : Nat) (P : Word) : Nat → Word → Word
  | 0, a => a
  | n + 1, a => steps W P n (crcStep W P a false)

/-- The window value of some bytes, the first the most significant (41_compute.md R74, 20_memory.md R35). -/
def window (rin : Bool) (ds : List Byte) : Word :=
  ds.foldl (fun win d => (win <<< 8) ||| inputByte rin d) 0

/-- One window of the document's algorithm (41_compute.md R74): exclusive-or it in, then `W` steps. -/
def absorbWindow (W : Nat) (P : Word) (rin : Bool) (crc : Word) (ds : List Byte) : Word :=
  steps W P W (crc ^^^ window rin ds)

/-- A short last window of `k < W/8` bytes at a width 8 divides, in the document's terms: at the most significant end,
followed by `8k` steps (41_compute.md R77). Elsewhere its value is a DESIGN CHOICE (log entry 11): at a width 8 does not
divide, `W/8` is rounded down, so the window is not at the most significant end (at width 20 one byte is shifted by 8, not
by 12; R77's window of one byte there is `absorbByteForm`); with `W/8` bytes or more the shift is by 0. No command
computes it. -/
def absorbShortWindow (W : Nat) (P : Word) (rin : Bool) (crc : Word) (ds : List Byte) : Word :=
  steps W P (8 * ds.length) (crc ^^^ (window rin ds <<< (8 * (W / 8 - ds.length))))

/-- The first `j` windows of `width/8` bytes each of the message, `width/8` rounded down where 8 does not divide the width
(DESIGN CHOICE, log entry 11). -/
def absorbWindows (p : Params) (m : List Byte) : Nat → Word
  | 0 => p.init &&& mask p.width
  | j + 1 =>
    absorbWindow p.width p.poly p.refin (absorbWindows p m j) ((m.drop (j * (p.width / 8))).take (p.width / 8))

/-- `checksum_windowed(p, m)`, the document's algorithm (41_compute.md R74), which the spec defines only where 8 divides
the width and `width/8` divides the message's length. Elsewhere its value is a DESIGN CHOICE (log entry 11): `width/8` is
rounded down and the bytes left over are not absorbed (below width 8 none is); no command computes it. -/
def checksumWindowed (p : Params) (m : List Byte) : Word :=
  let crc := absorbWindows p m (m.length / (p.width / 8)) ^^^ (p.xorout &&& mask p.width)
  (if p.refout then reflect p.width crc else crc) &&& mask p.width

/-- The byte form of `absorb_byte`, for widths 8 to 32 (41_compute.md R76). Below width 8, where the spec has no byte
form, the shift is by 0 (DESIGN CHOICE, log entry 11). -/
def absorbByteForm (W : Nat) (P : Word) (rin : Bool) (a : Word) (d : Byte) : Word :=
  steps W P 8 (a ^^^ (inputByte rin d <<< (W - 8)))

end Sys2Proof.Machine.Crc
end

