-- ==== Sys2Proof/Machine/State.lean ====
section
/-! DEFINITION. The state of the CRC engine as plain data: the ten architectural fields, the two channels, and the
host's side of them; the reasons a step can stop; the state after reset. -/

namespace Sys2Proof.Machine

/-- The architectural state: exactly the ten fields of 10_state.md R8. -/
structure Regs where
  /-- `WIDTH`, the CRC width; 0 means not configured (R10). -/
  width : BitVec 6
  /-- `POLY`, in normal form (R11). -/
  poly : Word
  /-- `INIT` (R12). -/
  init : Word
  /-- `XOROUT` (R13). -/
  xorout : Word
  /-- `REFIN` (R14). -/
  refin : Bool
  /-- `REFOUT` (R15). -/
  refout : Bool
  /-- `ACC`, the running CRC (R16). -/
  acc : Word
  /-- `RESULT`, the checksum of the last successful `FINISH` (R18). -/
  result : Word
  /-- `ACTIVE` (R19). -/
  active : Bool
  /-- `RVALID` (R20). -/
  rvalid : Bool
  deriving DecidableEq, Repr

/-- The reset values of 10_state.md R27. -/
def Regs.reset : Regs where
  width := 0
  poly := 0
  init := 0
  xorout := 0
  refin := false
  refout := false
  acc := 0
  result := 0
  active := false
  rvalid := false

/-- The six statuses of 60_exceptions.md R92; 6 to 15 are never produced, and a model has no name for them
(93_implementation_defined.md U6). -/
inductive Status where
  | ok | errOp | errArg | errBusy | errSeq | errCfg
  deriving DecidableEq, Repr

/-- A response (30_encoding.md R46). -/
structure Response where
  status : Status
  data : Word
  deriving DecidableEq, Repr

/-- What the host drives on its pins at one rising edge of `clk` (30_encoding.md R43). -/
structure Pins where
  rst : Bool
  cmdValid : Bool
  cmd : CmdWord
  rspReady : Bool
  deriving DecidableEq, Repr

/-- What the host does next. `command`, `take` and `reset` are whole acts at the level of command and response words
(30_encoding.md R44, last sentence; 70_reset_and_hazards.md R108), `edge` is one rising edge of `clk` (log entry 1). -/
inductive HostEvent where
  /-- The host hands `w` over; the event ends when the response of `w` is presented. -/
  | command (w : CmdWord)
  /-- The host takes the outstanding response, if there is one. -/
  | take
  /-- The host applies `rst` and releases it. -/
  | reset
  /-- One rising edge of `clk` with these pins. -/
  | edge (p : Pins)
  deriving DecidableEq, Repr

/-- The command and response channels (30_encoding.md R43, R44; 70_reset_and_hazards.md R107). -/
structure Port where
  /-- The response of the command in progress, not yet taken. -/
  rsp : Option Response
  /-- Cycles still to run before `rsp_valid` rises (log entry 7). -/
  wait : Nat
  /-- `rst` was 1 at the last edge, so `cmd_ready` is driven 0 (log entry 5). -/
  inReset : Bool
  /-- The word the host offered at the last edge without its being accepted (log entry 8). -/
  offer : Option CmdWord
  /-- The responses the host has taken, oldest first (the model's own record, log entry 3). -/
  taken : List Response
  deriving DecidableEq, Repr

/-- The channels when the engine is ready for its first command. -/
def Port.reset : Port where
  rsp := none
  wait := 0
  inReset := false
  offer := none
  taken := []

/-- The machine. -/
structure State where
  /-- The engine's registers. -/
  regs : Regs
  /-- The channels. -/
  port : Port
  /-- What the host will do, oldest first (the model's own field, log entry 2). -/
  inbox : List HostEvent
  deriving DecidableEq, Repr

/-- The machine right after reset (10_state.md R27, 70_reset_and_hazards.md R107): every register at its reset value,
no response outstanding, ready for a command (log entry 5); the host has not decided on anything yet (log entry 2). -/
def State.reset : State where
  regs := Regs.reset
  port := Port.reset
  inbox := []

/-- The engine has no faults (60_exceptions.md R91): a failure is a response. The type has no constructor, so that no
step can end in a fault (log entry 10, safe). -/
inductive Fault where
  deriving DecidableEq, Repr

/-- Why a step is refused. -/
inductive Refusal where
  /-- Raised by an arm of exec whose instruction has no meaning yet; no arm is one. Safe. -/
  | notModelled (mnemonic : String)
  /-- Raised by a host event that drops or changes an offered command word before it was accepted, which the spec
  leaves unspecified and tells a model to refuse (93_implementation_defined.md U12, log entry 8). Safe. -/
  | hostBrokeHandshake
  deriving DecidableEq, Repr

end Sys2Proof.Machine
end

