-- ==== Sys2Proof/Machine/Flags.lean ====
section
/-! DEFINITION. The two status flags (10_state.md R19 to R21), the two-bit views `STATUS` and `REFL` (R9), the phases
(R22), and the output pins (30_encoding.md R43, R44). -/

namespace Sys2Proof.Machine

/-- The register whose bit 1 is `hi` and whose bit 0 is `lo`, zero-extended (30_encoding.md R55). -/
def pairWord (hi lo : Bool) : Word := (BitVec.ofBool hi ++ BitVec.ofBool lo).setWidth 32

/-- `REFL`, read as `zext_32` of `REFOUT` above `REFIN` (10_state.md R9, 40_config.md R67). -/
def Regs.refl (r : Regs) : Word := pairWord r.refout r.refin

/-- `STATUS`, read as `zext_32` of `RVALID` above `ACTIVE` (10_state.md R9, 42_system.md R88). -/
def Regs.status (r : Regs) : Word := pairWord r.rvalid r.active

/-- The flags a successful `START` writes (10_state.md R19, R20). -/
def Regs.flagsStarted (r : Regs) : Regs := { r with active := true, rvalid := false }

/-- The flags a successful `FINISH` writes (10_state.md R19, R20). -/
def Regs.flagsFinished (r : Regs) : Regs := { r with active := false, rvalid := true }

/-- The three phases (10_state.md R22). -/
inductive Phase where
  | unconfigured | idle | computing
  deriving DecidableEq, Repr

/-- The phase, from the state (10_state.md R22). -/
def Regs.phase (r : Regs) : Phase :=
  if r.active then .computing else if r.width = 0 then .unconfigured else .idle

/-- The output `cmd_ready`: 1 but while a command is in progress or its response not taken (30_encoding.md R44), and
but for the edges of a reset (70_reset_and_hazards.md R107). -/
def Port.cmdReady (p : Port) : Bool := p.rsp.isNone && !p.inReset

/-- The output `rsp_valid`: the response is there and its latency has passed (30_encoding.md R44). -/
def Port.rspValid (p : Port) : Bool := p.rsp.isSome && p.wait == 0

end Sys2Proof.Machine
end

