-- ==== Sys2Proof/Machine/Operands.lean ====
section
/-! DEFINITION. The operand forms of 30_encoding.md R47, over bits as the pseudocode of the command rules writes them:
the check of the *zero* bits and of the width, and the fields. -/

namespace Sys2Proof.Machine.Operand

/-- Form `A0`: `arg[31:0]` zero. -/
def fitsA0 (arg : Word) : Bool := arg == 0

/-- Form `AW`: `arg[31:6]` zero and `arg[5:0]` in 1 to 32 (40_config.md R57). -/
def fitsAW (arg : Word) : Bool :=
  arg.extractLsb' 6 26 == 0 && (arg.extractLsb' 0 6 != 0 && (arg.extractLsb' 0 6).ule 32)

/-- Form `A32`: every value is legal. -/
def fitsA32 (_ : Word) : Bool := true

/-- Form `AR`: `arg[31:2]` zero (40_config.md R61). -/
def fitsAR (arg : Word) : Bool := arg.extractLsb' 2 30 == 0

/-- Form `AB`: `arg[31:8]` zero (41_compute.md R80). -/
def fitsAB (arg : Word) : Bool := arg.extractLsb' 8 24 == 0

/-- `w = arg[5:0]`. -/
def width (arg : Word) : BitVec 6 := arg.extractLsb' 0 6

/-- `refin = arg[0]`. -/
def refin (arg : Word) : Bool := arg.getLsbD 0

/-- `refout = arg[1]`. -/
def refout (arg : Word) : Bool := arg.getLsbD 1

/-- `d = arg[7:0]`. -/
def byte (arg : Word) : Byte := arg.extractLsb' 0 8

end Sys2Proof.Machine.Operand
end

