-- ==== Sys2Proof/Machine/Ops.lean ====
section
/-! DEFINITION. The shared operations: reading and writing a register by its index, responding, failing (what this
engine has in place of taking an exception), and the two shapes common to the `SET` and the `GET` commands. -/

namespace Sys2Proof.Machine

/-- The named registers (10_state.md R9). -/
inductive RegName where
  | width | poly | init | xorout | refl | status | result
  deriving DecidableEq, Repr

/-- The register an index names; 7 to 15 name none (10_state.md R9). -/
def RegName.ofIndex (ix : BitVec 4) : Option RegName :=
  [RegName.width, .poly, .init, .xorout, .refl, .status, .result][ix.toNat]?

/-- Reading a register whole, zero-extended to the data field (20_memory.md R40, 30_encoding.md R55). -/
def Regs.read (r : Regs) : RegName → Word
  | .width => r.width.setWidth 32
  | .poly => r.poly
  | .init => r.init
  | .xorout => r.xorout
  | .refl => r.refl
  | .status => r.status
  | .result => r.result

/-- The registers, with the register the host's operand `arg` is for written; `STATUS` and `RESULT` are never directly
written by the host (10_state.md R9). -/
def Regs.write (r : Regs) (arg : Word) : RegName → Regs
  | .width => { r with width := Operand.width arg }
  | .poly => { r with poly := arg }
  | .init => { r with init := arg }
  | .xorout => { r with xorout := arg }
  | .refl => { r with refin := Operand.refin arg, refout := Operand.refout arg }
  | .status => r
  | .result => r

/-- The state with other registers. -/
def State.setRegs (s : State) (r : Regs) : State := { s with regs := r }

/-- The state with a response to present. -/
def State.present (s : State) (r : Response) : State := { s with port := { s.port with rsp := some r } }

/-- `respond(OK, data)` (00_scope.md section 5.2). -/
def respond (data : Word) (s : State) : Host.Outcome State Fault Refusal := .next (s.present ⟨.ok, data⟩)

/-- `fail(status)`: the response with data 0, and no register written (00_scope.md section 5.2, 60_exceptions.md R91,
R99). It stands where a processor takes an exception; nothing is saved, so there is no return from it (R100). -/
def fail (st : Status) (s : State) : Host.Outcome State Fault Refusal := .next (s.present ⟨st, 0⟩)

/-- The `SET` commands (40_config.md R56): operand check, then `ERR_BUSY` during a computation, then the write. -/
def setParam (n : RegName) (fits : Bool) (arg : Word) (s : State) : Host.Outcome State Fault Refusal :=
  if fits = false then fail .errArg s
  else if s.regs.active = true then fail .errBusy s
  else respond 0 (s.setRegs (s.regs.write arg n))

/-- The `GET` commands without a state condition (40_config.md R62, 42_system.md R88). -/
def getReg (n : RegName) (arg : Word) (s : State) : Host.Outcome State Fault Refusal :=
  if Operand.fitsA0 arg = false then fail .errArg s
  else respond (s.regs.read n) s

/-- The 4-bit code of a status (60_exceptions.md R92). -/
def Status.code : Status → BitVec 4
  | .ok => 0
  | .errOp => 1
  | .errArg => 2
  | .errBusy => 3
  | .errSeq => 4
  | .errCfg => 5

/-- The response word, status above data (30_encoding.md R46). -/
def Response.encode (r : Response) : RspWord := r.status.code ++ r.data

/-- The status a code names; 6 to 15 name none (60_exceptions.md R92). -/
def Status.ofCode (c : BitVec 4) : Option Status :=
  [Status.ok, .errOp, .errArg, .errBusy, .errSeq, .errCfg][c.toNat]?

/-- How a host reads a response word; none for a word no RLCRC-1 engine sends (93_implementation_defined.md U6). -/
def Response.decode (w : RspWord) : Option Response :=
  (Status.ofCode (w.extractLsb' 32 4)).map fun st => ⟨st, w.extractLsb' 0 32⟩

/-- The pins `rsp`, which have a value only while `rsp_valid = 1` (30_encoding.md R44, 93_implementation_defined.md
U11). -/
def Port.rspPins (p : Port) : Option RspWord := if p.rspValid then p.rsp.map Response.encode else none

end Sys2Proof.Machine
end

