-- ==== Sys2Proof/Machine/Compute.lean ====
section
/-! DEFINITION. The computation commands START, PUSHB, FINISH, GETRES (41_compute.md section 4). -/

namespace Sys2Proof.Machine

/-- The parameter set the registers hold (41_compute.md R83). -/
def Regs.params (r : Regs) : Crc.Params :=
  ⟨r.width.toNat, r.poly, r.init, r.xorout, r.refin, r.refout⟩

/-- The registers after `START` has begun a computation (41_compute.md R79). -/
def Regs.started (r : Regs) : Regs :=
  Regs.flagsStarted { r with acc := r.init &&& Crc.mask r.width.toNat }

/-- The registers after one byte is absorbed (41_compute.md R80). -/
def Regs.absorbed (r : Regs) (d : Byte) : Regs :=
  { r with acc := Crc.absorbByte r.width.toNat r.poly r.refin r.acc d }

/-- The checksum `FINISH` computes (41_compute.md R81). -/
def Regs.finalValue (r : Regs) : Word := Crc.finalize r.width.toNat r.xorout r.refout r.acc

/-- The registers after `FINISH`; `ACC` stays (41_compute.md R81). -/
def Regs.finished (r : Regs) : Regs := Regs.flagsFinished { r with result := r.finalValue }

/-- `START` (41_compute.md R79). -/
def execStart (arg : Word) (s : State) : Host.Outcome State Fault Refusal :=
  if Operand.fitsA0 arg = false then fail .errArg s
  else if s.regs.width = 0 then fail .errCfg s
  else respond 0 (s.setRegs s.regs.started)

/-- `PUSHB` (41_compute.md R80). -/
def execPushb (arg : Word) (s : State) : Host.Outcome State Fault Refusal :=
  if Operand.fitsAB arg = false then fail .errArg s
  else if s.regs.active = false then fail .errSeq s
  else respond 0 (s.setRegs (s.regs.absorbed (Operand.byte arg)))

/-- `FINISH` (41_compute.md R81). -/
def execFinish (arg : Word) (s : State) : Host.Outcome State Fault Refusal :=
  if Operand.fitsA0 arg = false then fail .errArg s
  else if s.regs.active = false then fail .errSeq s
  else respond s.regs.finalValue (s.setRegs s.regs.finished)

/-- `GETRES` (41_compute.md R82). -/
def execGetres (arg : Word) (s : State) : Host.Outcome State Fault Refusal :=
  if Operand.fitsA0 arg = false then fail .errArg s
  else if s.regs.rvalid = false then fail .errSeq s
  else respond (s.regs.read .result) s

end Sys2Proof.Machine
end

