-- ==== Sys2Proof/Machine/Configuration.lean ====
section
/-! DEFINITION. The configuration commands (40_config.md): SETW SETP SETI SETX SETR, GETW GETP GETI GETX GETR. -/

namespace Sys2Proof.Machine

/-- `SETW` (40_config.md R57). -/
def execSetw (arg : Word) (s : State) : Host.Outcome State Fault Refusal := setParam .width (Operand.fitsAW arg) arg s

/-- `SETP` (40_config.md R58). -/
def execSetp (arg : Word) (s : State) : Host.Outcome State Fault Refusal := setParam .poly (Operand.fitsA32 arg) arg s

/-- `SETI` (40_config.md R59). -/
def execSeti (arg : Word) (s : State) : Host.Outcome State Fault Refusal := setParam .init (Operand.fitsA32 arg) arg s

/-- `SETX` (40_config.md R60). -/
def execSetx (arg : Word) (s : State) : Host.Outcome State Fault Refusal := setParam .xorout (Operand.fitsA32 arg) arg s

/-- `SETR` (40_config.md R61). -/
def execSetr (arg : Word) (s : State) : Host.Outcome State Fault Refusal := setParam .refl (Operand.fitsAR arg) arg s

/-- `GETW` (40_config.md R63). -/
def execGetw (arg : Word) (s : State) : Host.Outcome State Fault Refusal := getReg .width arg s

/-- `GETP` (40_config.md R64). -/
def execGetp (arg : Word) (s : State) : Host.Outcome State Fault Refusal := getReg .poly arg s

/-- `GETI` (40_config.md R65). -/
def execGeti (arg : Word) (s : State) : Host.Outcome State Fault Refusal := getReg .init arg s

/-- `GETX` (40_config.md R66). -/
def execGetx (arg : Word) (s : State) : Host.Outcome State Fault Refusal := getReg .xorout arg s

/-- `GETR` (40_config.md R67). -/
def execGetr (arg : Word) (s : State) : Host.Outcome State Fault Refusal := getReg .refl arg s

end Sys2Proof.Machine
end

