-- ==== Sys2Proof/Machine/System.lean ====
section
/-! DEFINITION. The system commands NOP, SRST, GETS (42_system.md), and what a reserved opcode does. -/

namespace Sys2Proof.Machine

/-- `NOP` (42_system.md R86). -/
def execNop (arg : Word) (s : State) : Host.Outcome State Fault Refusal :=
  if Operand.fitsA0 arg = false then fail .errArg s else respond 0 s

/-- `SRST`: every field back to its reset value (42_system.md R87). -/
def execSrst (arg : Word) (s : State) : Host.Outcome State Fault Refusal :=
  if Operand.fitsA0 arg = false then fail .errArg s else respond 0 (s.setRegs Regs.reset)

/-- `GETS` (42_system.md R88). -/
def execGets (arg : Word) (s : State) : Host.Outcome State Fault Refusal := getReg .status arg s

/-- A word with a reserved opcode: `ERR_OP`, whatever the operand and the phase (30_encoding.md R50, 60_exceptions.md
R93). -/
def execReserved (s : State) : Host.Outcome State Fault Refusal := fail .errOp s

end Sys2Proof.Machine
end

