-- ==== Sys2Proof/Machine/Dispatch.lean ====
section
/-! DEFINITION. The effect of a command: one arm per constructor of Instr. -/

namespace Sys2Proof.Machine

def exec (i : Instr) (s : State) : Host.Outcome State Fault Refusal :=
  match i with
  | .nop arg => Sys2Proof.Machine.execNop arg s
  | .srst arg => Sys2Proof.Machine.execSrst arg s
  | .setw arg => Sys2Proof.Machine.execSetw arg s
  | .setp arg => Sys2Proof.Machine.execSetp arg s
  | .seti arg => Sys2Proof.Machine.execSeti arg s
  | .setx arg => Sys2Proof.Machine.execSetx arg s
  | .setr arg => Sys2Proof.Machine.execSetr arg s
  | .getw arg => Sys2Proof.Machine.execGetw arg s
  | .getp arg => Sys2Proof.Machine.execGetp arg s
  | .geti arg => Sys2Proof.Machine.execGeti arg s
  | .getx arg => Sys2Proof.Machine.execGetx arg s
  | .getr arg => Sys2Proof.Machine.execGetr arg s
  | .gets arg => Sys2Proof.Machine.execGets arg s
  | .getres arg => Sys2Proof.Machine.execGetres arg s
  | .start arg => Sys2Proof.Machine.execStart arg s
  | .pushb arg => Sys2Proof.Machine.execPushb arg s
  | .finish arg => Sys2Proof.Machine.execFinish arg s

end Sys2Proof.Machine
end

