-- ==== Sys2Proof/Machine/Channel.lean ====
section
/-! DEFINITION. The command and response channels (30_encoding.md R43, R44), reset (70_reset_and_hazards.md R107, R108)
and the host's events: what one step of the machine does. -/

namespace Sys2Proof.Machine

/-- The state with other channels. -/
def State.setPort (s : State) (p : Port) : State := { s with port := p }

/-- The execution of an accepted command word (30_encoding.md R49): decode, then the command, or `ERR_OP`. -/
def runWord (w : CmdWord) (s : State) : Host.Outcome State Fault Refusal :=
  match decode w with
  | .instr i => exec i s
  | .reservedOpcode _ => execReserved s

/-- The command word on the pins, if `cmd_valid = 1`. -/
def Pins.offered (p : Pins) : Option CmdWord := if p.cmdValid then some p.cmd else none

/-- The host still holds the word it offered (30_encoding.md R44: it must, until acceptance). -/
def Port.heldBy (p : Port) (now : Option CmdWord) : Bool :=
  match p.offer with
  | none => true
  | some w => now == some w

/-- The response has been taken. -/
def Port.take (p : Port) : Port := { p with rsp := none, wait := 0, taken := p.taken ++ p.rsp.toList }

/-- Ready to execute a command handed over: the engine takes none before the response of the one before was taken
(20_memory.md R39), and none while in reset. -/
def Port.accepting (p : Port) : Port := { p.take with inReset := false, offer := none }

/-- `rst = 1` at an edge: both handshake outputs 0, a response not yet taken is never delivered
(70_reset_and_hazards.md R107, R108). -/
def Port.resetting (p : Port) : Port := { p with rsp := none, wait := 0, inReset := true, offer := none }

/-- The state after an edge with `rst = 1` (70_reset_and_hazards.md R107). -/
def State.resetting (s : State) : State := { s with regs := Regs.reset, port := s.port.resetting }

/-- An edge at which the engine is not ready for a command: it leaves reset (70_reset_and_hazards.md R107), or counts
the latency down, or sees the response taken, or holds it (30_encoding.md R44). -/
def Port.busyEdge (p : Port) (pins : Pins) : Port :=
  if p.inReset then { p with inReset := false, offer := pins.offered }
  else if p.wait ≠ 0 then { p with wait := p.wait - 1, offer := pins.offered }
  else if pins.rspReady then { p.take with offer := pins.offered }
  else { p with offer := pins.offered }

/-- A command word is accepted at this edge (30_encoding.md R44); its whole effect falls on the edge, and its response
is presented `LAT(op)` cycles later (log entries 6, 7). -/
def acceptAtEdge (w : CmdWord) (s : State) : Host.Outcome State Fault Refusal :=
  runWord w (s.setPort { s.port with offer := none, wait := Config.lat (opField w) })

/-- One rising edge of `clk` (30_encoding.md R43, R44; 70_reset_and_hazards.md R107, R108). -/
def clockEdge (pins : Pins) (s : State) : Host.Outcome State Fault Refusal :=
  if pins.rst then .next s.resetting
  else if s.port.heldBy pins.offered = false then .refused .hostBrokeHandshake
  else if s.port.cmdReady = false then .next (s.setPort (s.port.busyEdge pins))
  else
    match pins.offered with
    | none => .next s
    | some w => acceptAtEdge w s

/-- A whole command handed over, executed and answered (30_encoding.md R44, last sentence; log entries 1, 4). -/
def commandEvent (w : CmdWord) (s : State) : Host.Outcome State Fault Refusal :=
  if s.port.heldBy (some w) = false then .refused .hostBrokeHandshake
  else runWord w (s.setPort s.port.accepting)

/-- Reset as an event between two commands, applied and released (70_reset_and_hazards.md R108). -/
def resetEvent (s : State) : State :=
  s.resetting.setPort { s.port.resetting with inReset := false }

/-- What a host event does. -/
def hostEvent (e : HostEvent) (s : State) : Host.Outcome State Fault Refusal :=
  match e with
  | .command w => commandEvent w s
  | .take => .next (s.setPort s.port.take)
  | .reset => .next (resetEvent s)
  | .edge pins => clockEdge pins s

/-- The next host event, if there is one; without one the engine is idle with its state held (60_exceptions.md R105,
log entry 9). -/
def advance (s : State) : Host.Outcome State Fault Refusal :=
  match s.inbox with
  | [] => .next s
  | e :: rest => hostEvent e { s with inbox := rest }

/-- `s` where the host hands over the command word `w` next, holding no other (log entry 2). -/
def State.offering (s : State) (w : CmdWord) : State :=
  { s with port := { s.port with offer := none }, inbox := .command w :: s.inbox }

end Sys2Proof.Machine
end

