-- ==== Sys2Proof/Machine/Step.lean ====
section
/-! DEFINITION. One step of the machine, and how a word comes to be the next command. -/

namespace Sys2Proof.Machine

/-- One step: the next host event (00_scope.md section 7 item 1, 10_state.md R28). -/
def step (s : State) : Host.Outcome State Fault Refusal := advance s

/-- `s` with the word that `w` spells as the next command of the host (log entry 2). -/
def State.withFetchWord (s : State) (nbits w : Nat) : State :=
  match tableWord nbits w with
  | none => s
  | some c => s.offering c

end Sys2Proof.Machine
end

