-- ==== Sys2Proof/Machine/Pseudo.lean ====
section
/-! DEFINITION. The four pseudo-instructions, pure expansions (30_encoding.md R54). -/

namespace Sys2Proof.Machine.Pseudo

/-- The operand of `SETR refin, refout` (30_encoding.md R53). -/
def reflOperand (refin refout : Bool) : Word := (BitVec.ofBool refout ++ BitVec.ofBool refin).setWidth 32

/-- `CONFIG w, poly, init, xorout, refin, refout`. -/
def config (w poly init xorout : Word) (refin refout : Bool) : List Instr :=
  [.setw w, .setp poly, .seti init, .setx xorout, .setr (reflOperand refin refout)]

/-- `PUSHS "text"`: one `PUSHB` per character, its code as the operand. -/
def pushs (text : List Char) : List Instr := text.map fun c => .pushb (BitVec.ofNat 32 c.toNat)

/-- `PUSHH b0 b1 ... bn`: one `PUSHB` per listed byte. -/
def pushh (bytes : List Byte) : List Instr := bytes.map fun b => .pushb (b.setWidth 32)

/-- `CHECKSUM "text"`. -/
def checksum (text : List Char) : List Instr := [.start 0] ++ pushs text ++ [.finish 0]

end Sys2Proof.Machine.Pseudo
end

