-- ==== Sys2Proof/Machine/Listing.lean ====
section
/-! DEFINITION. The listing syntax (30_encoding.md R53) with the pseudo-instructions (R54): from a line of text to the
command words it stands for. What the spec leaves open of it (a `;` in quotes, the number form of PUSHH, white space,
case of hexadecimal digits) is log entry 15. -/

namespace Sys2Proof.Machine.Listing

/-- The value of a digit in a base, if it is one. -/
def digit (base : Nat) (c : Char) : Option Nat :=
  let n := c.toNat
  let v :=
    if 48 ≤ n ∧ n ≤ 57 then n - 48
    else if 65 ≤ n ∧ n ≤ 70 then n - 55
    else if 97 ≤ n ∧ n ≤ 102 then n - 87
    else 16
  if v < base then some v else none

/-- The number some digits spell. -/
def digits (base : Nat) (ds : List Char) : Option Nat :=
  if ds = [] then none else ds.foldlM (fun acc c => (digit base c).map (acc * base + ·)) 0

/-- An unsigned number in decimal, `0x` hexadecimal or `0b` binary. -/
def number : List Char → Option Nat
  | '0' :: 'x' :: ds => digits 16 ds
  | '0' :: 'b' :: ds => digits 2 ds
  | ds => digits 10 ds

/-- Without the white space at both ends. -/
def trim (cs : List Char) : List Char :=
  ((cs.dropWhile (· == ' ')).reverse.dropWhile (· == ' ')).reverse

/-- Without the comment, which a `;` starts (30_encoding.md R53). R53 makes no exception for a `;` inside the quotes of
PUSHS and CHECKSUM, R54 pushes every character of the text; DESIGN CHOICE (log entry 15): inside quotes a `;` is a
character of the text and starts no comment, so `PUSHS "1;"` pushes 0x31 and 0x3B. -/
def stripComment : Bool → List Char → List Char
  | _, [] => []
  | inside, c :: cs =>
    if c == ';' && !inside then [] else c :: stripComment (if c == '"' then !inside else inside) cs

/-- An operand as a 32-bit number; one that does not fit is refused, not truncated. -/
def operand (cs : List Char) : Option Word :=
  (number (trim cs)).bind fun n => if n < 2 ^ 32 then some (BitVec.ofNat 32 n) else none

/-- An operand that is 0 or 1. -/
def flag (cs : List Char) : Option Bool :=
  match number (trim cs) with
  | some 0 => some false
  | some 1 => some true
  | _ => none

/-- The text between two quotes; a character without an ASCII code is refused. -/
def quoted : List Char → Option (List Char)
  | '"' :: cs =>
    match cs.reverse with
    | '"' :: rev => if rev.contains '"' || rev.any (127 < ·.toNat) then none else some rev.reverse
    | _ => none
  | _ => none

/-- `CONFIG`'s operands. -/
def configLine (cs : List Char) : Option (List Instr) :=
  match cs.splitOn ',' with
  | [w, p, i, x, rin, rout] => do
    return Pseudo.config (← operand w) (← operand p) (← operand i) (← operand x) (← flag rin) (← flag rout)
  | _ => none

/-- `PUSHH`'s bytes, separated by spaces. 30_encoding.md R54 gives them no number form; DESIGN CHOICE (log entry 15): each
is a number as R53 writes one, so `11` is decimal and hexadecimal needs its `0x`. -/
def pushhLine (cs : List Char) : Option (List Instr) :=
  (((cs.splitOn ' ').filter (· ≠ [])).mapM operand).bind fun ws =>
    if ws ≠ [] ∧ ws.all (·.toNat ≤ 255) then some (Pseudo.pushh (ws.map (·.setWidth 8))) else none

/-- The operand part of a row of the opcode map: an `A0` command has none, `SETR` two, the others one. -/
def rowLine (r : Row) (cs : List Char) : Option (List Instr) :=
  match (r.make 0).form with
  | .a0 => if cs = [] then some [r.make 0] else none
  | .ar =>
    match cs.splitOn ',' with
    | [rin, rout] => do return [r.make (Pseudo.reflOperand (← flag rin) (← flag rout))]
    | _ => none
  | _ => (operand cs).map fun w => [r.make w]

/-- The commands a line stands for; none for a line the syntax does not have. -/
def parseLine (line : List Char) : Option (List Instr) :=
  let body := trim (stripComment false line)
  let mnemonic := body.takeWhile (· ≠ ' ')
  let rest := trim (body.dropWhile (· ≠ ' '))
  if body = [] then some []
  else if mnemonic = "CONFIG".toList then configLine rest
  else if mnemonic = "PUSHS".toList then (quoted rest).map Pseudo.pushs
  else if mnemonic = "PUSHH".toList then pushhLine rest
  else if mnemonic = "CHECKSUM".toList then (quoted rest).map Pseudo.checksum
  else (opcodeTable.find? fun r => r.mnemonic.toList == mnemonic).bind fun r => rowLine r rest

/-- The command words of a line; an operand that does not fit its form is refused (30_encoding.md R53). -/
def assembleLine (line : List Char) : Option (List CmdWord) := (parseLine line).bind (·.mapM assemble)

end Sys2Proof.Machine.Listing
end

