-- ==== Sys2Proof/Safety.lean ====
section
/-! DEFINITION. What holds of a good state: the invariants of 10_state.md R23, in the terms the statements use. -/

namespace Sys2Proof.Machine

/-- `v[31:n] = 0`. -/
def ClearAbove (n : Nat) (v : Word) : Prop := ∀ i, n ≤ i → v.getLsbD i = false

/-- The invariants (a) to (d) of 10_state.md R23, and one that R22 states of the phases. -/
structure Regs.Inv (r : Regs) : Prop where
  /-- (a) `WIDTH` is 0 or in 1 to 32. -/
  width_le : r.width.toNat ≤ 32
  /-- (b) `ACTIVE = 1` implies `WIDTH != 0`. -/
  active_width : r.active = true → r.width ≠ 0
  /-- (c) `ACTIVE = 1` implies `ACC[31:WIDTH] = 0`. -/
  active_acc : r.active = true → ClearAbove r.width.toNat r.acc
  /-- (d) `ACTIVE` and `RVALID` are not both 1. -/
  not_both : ¬(r.active = true ∧ r.rvalid = true)
  /-- No valid result without a width: in phase UNCONFIGURED `GETRES` does not succeed (10_state.md R22). -/
  rvalid_width : r.rvalid = true → r.width ≠ 0

/-- The channels make sense (30_encoding.md R44, 70_reset_and_hazards.md R107): latency runs only for a command in
progress, and in reset no response is outstanding and no offer is remembered. -/
structure Port.Inv (p : Port) : Prop where
  wait_rsp : p.rsp = none → p.wait = 0
  reset_idle : p.inReset = true → p.rsp = none ∧ p.offer = none

/-- (e) and (f) of 10_state.md R23, for `last` the width in force at the last successful `FINISH` since reset (none if
there was none): `RESULT` is clear from that width up, and is 0 where there was no `FINISH`. -/
structure Regs.ResultInv (r : Regs) (last : Option (BitVec 6)) : Prop where
  valid_finished : r.rvalid = true → last ≠ none
  clear_above : ∀ w, last = some w → ClearAbove w.toNat r.result
  never_finished : last = none → r.result = 0

/-- The width in force at the last successful `FINISH` since reset, after a step from `s` to `t`: a `FINISH` is what
makes `RVALID` rise, a reset is what makes `WIDTH` fall to 0. -/
def lastWidth (s t : State) (last : Option (BitVec 6)) : Option (BitVec 6) :=
  if t.regs = Regs.reset then none
  else if s.regs.active = true ∧ t.regs.rvalid = true then some s.regs.width
  else last

end Sys2Proof.Machine
end

