-- ==== Sys2Proof/Certificates/Slice0/Obligations.lean ====
section
/-! DEFINITION. The statements for the provers, each from a numbered rule of spec/ or from a section of it, after the
few words they are said in. -/

namespace Sys2Proof.Claims

open Sys2Proof.Machine

/-- `i` in the state `s` answers a next state: the registers `r`, the response `a` presented, and nothing else changed
(not the responses taken, not the host's events, not the rest of the channels). -/
def Gives (i : Instr) (s : State) (r : Regs) (a : Response) : Prop :=
  exec i s = .next { s with regs := r, port := { s.port with rsp := some a } }

/-- The machine after the host's events `es`, one step each, started with `s`'s registers and channels. -/
def runs (s : State) (es : List HostEvent) : Host.Outcome State Fault Refusal :=
  Host.Core.run Sys2Proof.core es.length { s with inbox := es }

/-- Whole commands, handed over one after the other. -/
def commands (ws : List CmdWord) : List HostEvent := ws.map .command

/-- The causes of `ERR_ARG`, exhaustively (60_exceptions.md R94). -/
def operandError : Instr → Prop
  | .nop arg | .srst arg | .getw arg | .getp arg | .geti arg | .getx arg | .getr arg | .gets arg | .getres arg
  | .start arg | .finish arg => arg ≠ 0
  | .setw arg => ¬(1 ≤ arg.toNat ∧ arg.toNat ≤ 32)
  | .setr arg => 3 < arg.toNat
  | .pushb arg => 255 < arg.toNat
  | .setp _ | .seti _ | .setx _ => False

/-- The five `SET` commands. -/
def isSet : Instr → Prop
  | .setw _ | .setp _ | .seti _ | .setx _ | .setr _ => True
  | _ => False

/-- The commands that need a computation in progress, or a finished one, and the flag that says so (60_exceptions.md
R96). -/
def sequenceError (r : Regs) : Instr → Prop
  | .pushb _ | .finish _ => r.active = false
  | .getres _ => r.rvalid = false
  | _ => False

/-- `START` with no width configured (60_exceptions.md R97). -/
def configError (r : Regs) : Instr → Prop
  | .start _ => r.width = 0
  | _ => False

/-- The reserved opcodes, by their ranges (30_encoding.md R50). -/
def reserved (op : BitVec 8) : Prop :=
  (0x02 ≤ op.toNat ∧ op.toNat ≤ 0x0F) ∨ (0x15 ≤ op.toNat ∧ op.toNat ≤ 0x1F) ∨ (0x27 ≤ op.toNat ∧ op.toNat ≤ 0x2F) ∨
    0x33 ≤ op.toNat

/-- The data a command that succeeds returns (30_encoding.md R55). -/
def returned (r : Regs) : Instr → Word
  | .getw _ => BitVec.ofNat 32 r.width.toNat
  | .getp _ => r.poly
  | .geti _ => r.init
  | .getx _ => r.xorout
  | .getr _ => BitVec.ofNat 32 (2 * r.refout.toNat + r.refin.toNat)
  | .gets _ => BitVec.ofNat 32 (2 * r.rvalid.toNat + r.active.toNat)
  | .getres _ => r.result
  | .finish _ => Crc.finalize r.width.toNat r.xorout r.refout r.acc
  | _ => 0

/-- What each command may change among the registers, `r` before and `r'` after (the frame). -/
def mayChange (r r' : Regs) : Instr → Prop
  | .srst _ => True
  | .setw _ => r' = { r with width := r'.width }
  | .setp _ => r' = { r with poly := r'.poly }
  | .seti _ => r' = { r with init := r'.init }
  | .setx _ => r' = { r with xorout := r'.xorout }
  | .setr _ => r' = { r with refin := r'.refin, refout := r'.refout }
  | .start _ => r' = { r with acc := r'.acc, active := r'.active, rvalid := r'.rvalid }
  | .pushb _ => r' = { r with acc := r'.acc }
  | .finish _ => r' = { r with result := r'.result, active := r'.active, rvalid := r'.rvalid }
  | _ => r' = r

/-- The phases in which a command with a legal operand succeeds (10_state.md R22), given `RVALID`. -/
def succeedsIn (ph : Phase) (rvalid : Bool) : Instr → Prop
  | .setw _ | .setp _ | .seti _ | .setx _ | .setr _ => ph ≠ .computing
  | .getres _ => ph = .idle ∧ rvalid = true
  | .start _ => ph ≠ .unconfigured
  | .pushb _ | .finish _ => ph = .computing
  | _ => True

/-- The phase after a command that succeeds (10_state.md R22). -/
def phaseAfter (ph : Phase) : Instr → Phase
  | .srst _ => .unconfigured
  | .setw _ => .idle
  | .start _ => .computing
  | .finish _ => .idle
  | _ => ph

/-- The bytes a list of command words pushes: those of its `PUSHB` words with a legal operand, in order. -/
def message (ws : List CmdWord) : List Byte :=
  ws.filterMap fun w =>
    match decode w with
    | .instr (.pushb arg) => if arg.toNat ≤ 255 then some (arg.setWidth 8) else none
    | _ => none

/-- The words that begin, end or abandon a computation: legal `START`, `FINISH`, `SRST`. -/
def steers (w : CmdWord) : Prop := w = 0x3000000000 ∨ w = 0x3200000000 ∨ w = 0x0100000000

/-- Two register files that differ at most in what no command can observe: `ACC` while no computation is in progress,
`RESULT` while it is not valid (10_state.md R26, R18). -/
def SameVisible (r q : Regs) : Prop :=
  q = { r with acc := q.acc, result := q.result } ∧ (r.active = true → q.acc = r.acc) ∧
    (r.rvalid = true → q.result = r.result)

/-- Bits of a byte in the order they enter the CRC (20_memory.md R34). -/
def entryBits (rin : Bool) (d : Byte) : List Bool :=
  if rin then [d.getLsbD 0, d.getLsbD 1, d.getLsbD 2, d.getLsbD 3, d.getLsbD 4, d.getLsbD 5, d.getLsbD 6, d.getLsbD 7]
  else [d.getLsbD 7, d.getLsbD 6, d.getLsbD 5, d.getLsbD 4, d.getLsbD 3, d.getLsbD 2, d.getLsbD 1, d.getLsbD 0]

/-- The polynomial over the two-element field whose coefficient of `x^i` is bit `i` of `v`, for the low `n` bits. -/
noncomputable def polyOf (n : Nat) (v : Word) : Polynomial (ZMod 2) :=
  ∑ i ∈ Finset.range n, if v.getLsbD i then Polynomial.X ^ i else 0

/-- The generator polynomial: normal form, the `x^W` term implied (00_scope.md glossary, entry "polynomial"). -/
noncomputable def generator (W : Nat) (P : Word) : Polynomial (ZMod 2) := Polynomial.X ^ W + polyOf W P

/-- The polynomial of a bit string, the first bit the highest. -/
noncomputable def bitsPoly (bs : List Bool) : Polynomial (ZMod 2) :=
  bs.foldl (fun q b => q * Polynomial.X + if b then 1 else 0) 0

/-- The host's next event is a reset: an edge with `rst = 1`, or the whole act. -/
def resets (s : State) : Prop :=
  (∃ rest, s.inbox = .reset :: rest) ∨ ∃ pins rest, s.inbox = .edge pins :: rest ∧ pins.rst = true

/-- At the host's next event the word `w` is accepted (30_encoding.md R44): it is handed over, or stands on the pins at
an edge with `rst = 0`, `cmd_valid = 1` and `cmd_ready = 1`. -/
def accepts (s : State) (w : CmdWord) : Prop :=
  (∃ rest, s.inbox = .command w :: rest) ∨
    ∃ pins rest, s.inbox = .edge pins :: rest ∧ pins.rst = false ∧ pins.cmdValid = true ∧ s.port.cmdReady = true ∧
      pins.cmd = w

/-- An edge at which the host does nothing. -/
def idlePins : Pins := ⟨false, false, 0, false⟩

end Sys2Proof.Claims

open Sys2Proof Sys2Proof.Machine Sys2Proof.Claims

/-! ## Reset -/

/-- 10_state.md R27: the reset values, after reset (the state the model starts in, an edge with `rst = 1`, the reset
event) and after a successful `SRST`. -/
def Obligations.ResetAndSrstGiveTheResetValues : Prop :=
  let zero : Regs := ⟨0, 0, 0, 0, false, false, 0, 0, false, false⟩
  State.reset.regs = zero ∧
    ∀ (s : State) (rest : List HostEvent),
      (∀ pins : Pins, pins.rst = true →
        ∃ t, step { s with inbox := .edge pins :: rest } = .next t ∧ t.regs = zero) ∧
      (∃ t, step { s with inbox := .reset :: rest } = .next t ∧ t.regs = zero) ∧
      Gives (.srst 0) s zero ⟨.ok, 0⟩

/-- 70_reset_and_hazards.md R107: at an edge with `rst = 1` every field takes its reset value and both handshake outputs
are driven 0; at the first edge with `rst = 0` again the engine is UNCONFIGURED and drives `cmd_ready = 1`; one edge
with `rst = 1` is enough, from any state (which edge is the first to accept is the model's reading, log entry 5). -/
def Obligations.OneResetEdgeIsEnough : Prop :=
  ∀ (s : State) (on off : Pins) (rest : List HostEvent), on.rst = true → off.rst = false →
    ∃ t u, step { s with inbox := .edge on :: .edge off :: rest } = .next t ∧
      t.regs = Regs.reset ∧ t.port.cmdReady = false ∧ t.port.rspValid = false ∧
      step t = .next u ∧ u.regs = Regs.reset ∧ u.regs.phase = .unconfigured ∧ u.port.cmdReady = true ∧
      u.port.rspValid = false ∧ u.inbox = rest

/-- 70_reset_and_hazards.md R108: with `rst = 1` a command on the pins is not accepted (the outcome is the same whatever
the pins hold) and a response not yet taken is never delivered; as an event between two commands reset sets the state to
the reset state (log entries 5, 8 for the channels). -/
def Obligations.ResetOverridesCommands : Prop :=
  ∀ (s : State) (rest : List HostEvent),
    (∀ pins : Pins, pins.rst = true →
      step { s with inbox := .edge pins :: rest } =
        .next ⟨Regs.reset, ⟨none, 0, true, none, s.port.taken⟩, rest⟩) ∧
    step { s with inbox := .reset :: rest } = .next ⟨Regs.reset, ⟨none, 0, false, none, s.port.taken⟩, rest⟩

/-! ## The commands, one by one -/

/-- 42_system.md R86. -/
def Obligations.NopDoesNothing : Prop :=
  (∀ s, Gives (.nop 0) s s.regs ⟨.ok, 0⟩) ∧
    (∀ s arg, arg ≠ 0 → Gives (.nop arg) s s.regs ⟨.errArg, 0⟩) ∧ decode 0x0000000000 = .instr (.nop 0)

/-- 42_system.md R87; and no other command clears `WIDTH`. -/
def Obligations.SrstResetsEveryField : Prop :=
  (∀ s, Gives (.srst 0) s ⟨0, 0, 0, 0, false, false, 0, 0, false, false⟩ ⟨.ok, 0⟩) ∧
    (∀ s, Gives (.srst 0) s State.reset.regs ⟨.ok, 0⟩) ∧
    (∀ s arg, arg ≠ 0 → Gives (.srst arg) s s.regs ⟨.errArg, 0⟩) ∧
    (∀ (i : Instr) (s t : State), exec i s = .next t → s.regs.width ≠ 0 → t.regs.width = 0 → i = .srst 0) ∧
    decode 0x0100000000 = .instr (.srst 0)

/-- 42_system.md R88: bit 0 is `ACTIVE`, bit 1 `RVALID`; under the invariant the value is 0, 1 or 2. -/
def Obligations.GetsReturnsTheFlags : Prop :=
  (∀ s, Gives (.gets 0) s s.regs ⟨.ok, BitVec.ofNat 32 (2 * s.regs.rvalid.toNat + s.regs.active.toNat)⟩) ∧
    (∀ s : State, s.regs.Inv → 2 * s.regs.rvalid.toNat + s.regs.active.toNat ≤ 2) ∧
    (∀ s arg, arg ≠ 0 → Gives (.gets arg) s s.regs ⟨.errArg, 0⟩) ∧ decode 0x2500000000 = .instr (.gets 0)

/-- 40_config.md R57; and nothing but a successful `SETW` gives a width where there was none. -/
def Obligations.SetwSetsTheWidth : Prop :=
  (∀ (s : State) (arg : Word), 1 ≤ arg.toNat → arg.toNat ≤ 32 → s.regs.active = false →
      Gives (.setw arg) s { s.regs with width := BitVec.ofNat 6 arg.toNat } ⟨.ok, 0⟩) ∧
    (∀ (s : State) (arg : Word), ¬(1 ≤ arg.toNat ∧ arg.toNat ≤ 32) → Gives (.setw arg) s s.regs ⟨.errArg, 0⟩) ∧
    (∀ (s : State) (arg : Word), 1 ≤ arg.toNat → arg.toNat ≤ 32 → s.regs.active = true →
      Gives (.setw arg) s s.regs ⟨.errBusy, 0⟩) ∧
    (∀ (i : Instr) (s t : State), exec i s = .next t → s.regs.width = 0 → t.regs.width ≠ 0 → ∃ arg, i = .setw arg) ∧
    ∀ w : Nat, 1 ≤ w → w ≤ 32 → decode (BitVec.ofNat 40 (0x1000000000 + w)) = .instr (.setw (BitVec.ofNat 32 w))

/-- 40_config.md R58, R59, R60: `SETP`, `SETI`, `SETX` store all 32 bits of any operand, and fail only with
`ERR_BUSY`. -/
def Obligations.SetpSetiSetxStoreTheOperand : Prop :=
  ∀ (s : State) (arg : Word),
    (s.regs.active = false →
      Gives (.setp arg) s { s.regs with poly := arg } ⟨.ok, 0⟩ ∧
      Gives (.seti arg) s { s.regs with init := arg } ⟨.ok, 0⟩ ∧
      Gives (.setx arg) s { s.regs with xorout := arg } ⟨.ok, 0⟩) ∧
    (s.regs.active = true →
      Gives (.setp arg) s s.regs ⟨.errBusy, 0⟩ ∧ Gives (.seti arg) s s.regs ⟨.errBusy, 0⟩ ∧
      Gives (.setx arg) s s.regs ⟨.errBusy, 0⟩) ∧
    decode (BitVec.ofNat 40 (0x1100000000 + arg.toNat)) = .instr (.setp arg) ∧
    decode (BitVec.ofNat 40 (0x1200000000 + arg.toNat)) = .instr (.seti arg) ∧
    decode (BitVec.ofNat 40 (0x1300000000 + arg.toNat)) = .instr (.setx arg)

/-- 40_config.md R61. -/
def Obligations.SetrSetsBothReflectionFlags : Prop :=
  (∀ (s : State) (refin refout : Bool), s.regs.active = false →
      Gives (.setr (BitVec.ofNat 32 (2 * refout.toNat + refin.toNat))) s
        { s.regs with refin := refin, refout := refout } ⟨.ok, 0⟩) ∧
    (∀ (s : State) (arg : Word), 3 < arg.toNat → Gives (.setr arg) s s.regs ⟨.errArg, 0⟩) ∧
    (∀ (s : State) (arg : Word), arg.toNat ≤ 3 → s.regs.active = true → Gives (.setr arg) s s.regs ⟨.errBusy, 0⟩) ∧
    decode 0x1400000000 = .instr (.setr 0) ∧ decode 0x1400000001 = .instr (.setr 1) ∧
    decode 0x1400000002 = .instr (.setr 2) ∧ decode 0x1400000003 = .instr (.setr 3)

/-- 40_config.md R62 to R67: the five parameter `GET`s, in every state, without a side effect. -/
def Obligations.ParameterGetsReturnTheStoredValues : Prop :=
  (∀ s : State,
    Gives (.getw 0) s s.regs ⟨.ok, BitVec.ofNat 32 s.regs.width.toNat⟩ ∧
    Gives (.getp 0) s s.regs ⟨.ok, s.regs.poly⟩ ∧
    Gives (.geti 0) s s.regs ⟨.ok, s.regs.init⟩ ∧
    Gives (.getx 0) s s.regs ⟨.ok, s.regs.xorout⟩ ∧
    Gives (.getr 0) s s.regs ⟨.ok, BitVec.ofNat 32 (2 * s.regs.refout.toNat + s.regs.refin.toNat)⟩) ∧
  (∀ (s : State) (arg : Word), arg ≠ 0 →
    Gives (.getw arg) s s.regs ⟨.errArg, 0⟩ ∧ Gives (.getp arg) s s.regs ⟨.errArg, 0⟩ ∧
    Gives (.geti arg) s s.regs ⟨.errArg, 0⟩ ∧ Gives (.getx arg) s s.regs ⟨.errArg, 0⟩ ∧
    Gives (.getr arg) s s.regs ⟨.errArg, 0⟩) ∧
  decode 0x2000000000 = .instr (.getw 0) ∧ decode 0x2100000000 = .instr (.getp 0) ∧
  decode 0x2200000000 = .instr (.geti 0) ∧ decode 0x2300000000 = .instr (.getx 0) ∧
  decode 0x2400000000 = .instr (.getr 0)

/-- 40_config.md R62, last sentence: a `GET` after a successful `SET` of the same register returns the operand (for
`SETW` its low 6 bits, for `SETR` its low 2). -/
def Obligations.GetAfterSetReturnsTheOperand : Prop :=
  ∀ (s t : State) (arg : Word) (a : Response), t.port.rsp = some a → a.status = .ok →
    (exec (.setw arg) s = .next t → Gives (.getw 0) t t.regs ⟨.ok, BitVec.ofNat 32 (arg.toNat % 64)⟩) ∧
    (exec (.setp arg) s = .next t → Gives (.getp 0) t t.regs ⟨.ok, arg⟩) ∧
    (exec (.seti arg) s = .next t → Gives (.geti 0) t t.regs ⟨.ok, arg⟩) ∧
    (exec (.setx arg) s = .next t → Gives (.getx 0) t t.regs ⟨.ok, arg⟩) ∧
    (exec (.setr arg) s = .next t → Gives (.getr 0) t t.regs ⟨.ok, BitVec.ofNat 32 (arg.toNat % 4)⟩)

/-- 41_compute.md R79. -/
def Obligations.StartBeginsAComputation : Prop :=
  (∀ s : State, s.regs.width ≠ 0 →
      Gives (.start 0) s
        { s.regs with acc := s.regs.init &&& Crc.mask s.regs.width.toNat, active := true, rvalid := false } ⟨.ok, 0⟩) ∧
    (∀ s : State, s.regs.width = 0 → Gives (.start 0) s s.regs ⟨.errCfg, 0⟩) ∧
    (∀ (s : State) (arg : Word), arg ≠ 0 → Gives (.start arg) s s.regs ⟨.errArg, 0⟩) ∧
    (∀ s : State, s.regs.width = 8 → s.regs.init = 0xFFFFFF00 →
      Gives (.start 0) s { s.regs with acc := 0, active := true, rvalid := false } ⟨.ok, 0⟩) ∧
    decode 0x3000000000 = .instr (.start 0)

/-- 41_compute.md R80, with its worked example. -/
def Obligations.PushbAbsorbsOneByte : Prop :=
  (∀ (s : State) (d : Byte), s.regs.active = true →
      Gives (.pushb (d.setWidth 32)) s
        { s.regs with acc := Crc.absorbByte s.regs.width.toNat s.regs.poly s.regs.refin s.regs.acc d } ⟨.ok, 0⟩) ∧
    (∀ (s : State) (arg : Word), 255 < arg.toNat → Gives (.pushb arg) s s.regs ⟨.errArg, 0⟩) ∧
    (∀ (s : State) (arg : Word), arg.toNat ≤ 255 → s.regs.active = false →
      Gives (.pushb arg) s s.regs ⟨.errSeq, 0⟩) ∧
    (∀ s : State, s.regs.active = true → s.regs.width = 16 → s.regs.poly = 0x1021 → s.regs.refin = false →
      s.regs.acc = 0xFFFF → Gives (.pushb 0x31) s { s.regs with acc := 0xC782 } ⟨.ok, 0⟩) ∧
    ∀ d : Byte, decode (BitVec.ofNat 40 (0x3100000000 + d.toNat)) = .instr (.pushb (d.setWidth 32))

/-- 41_compute.md R81, with its worked examples. -/
def Obligations.FinishReturnsTheChecksum : Prop :=
  (∀ s : State, s.regs.active = true →
      let r := Crc.finalize s.regs.width.toNat s.regs.xorout s.regs.refout s.regs.acc
      Gives (.finish 0) s { s.regs with result := r, rvalid := true, active := false } ⟨.ok, r⟩ ∧
        ClearAbove s.regs.width.toNat r) ∧
    (∀ s : State, s.regs.active = false → Gives (.finish 0) s s.regs ⟨.errSeq, 0⟩) ∧
    (∀ (s : State) (arg : Word), arg ≠ 0 → Gives (.finish arg) s s.regs ⟨.errArg, 0⟩) ∧
    (∀ s : State, s.regs.active = true → s.regs.width = 16 → s.regs.refout = false → s.regs.acc = 0x29B1 →
      (s.regs.xorout = 0 →
        Gives (.finish 0) s { s.regs with result := 0x29B1, rvalid := true, active := false } ⟨.ok, 0x29B1⟩) ∧
      (s.regs.xorout = 0xFFFF →
        Gives (.finish 0) s { s.regs with result := 0xD64E, rvalid := true, active := false } ⟨.ok, 0xD64E⟩)) ∧
    decode 0x3200000000 = .instr (.finish 0)

/-- 41_compute.md R82, its pseudocode; what keeps `RESULT` and `RVALID` between two `GETRES` is
ResultStaysUntilFinishOrReset and FlagsAreWrittenByStartFinishSrstOnly. -/
def Obligations.GetresReadsAValidResult : Prop :=
  (∀ s : State, s.regs.rvalid = true → Gives (.getres 0) s s.regs ⟨.ok, s.regs.result⟩) ∧
    (∀ s : State, s.regs.rvalid = false → Gives (.getres 0) s s.regs ⟨.errSeq, 0⟩) ∧
    (∀ (s : State) (arg : Word), arg ≠ 0 → Gives (.getres arg) s s.regs ⟨.errArg, 0⟩) ∧
    decode 0x2600000000 = .instr (.getres 0)

/-! ## Failures, responses, frames -/

/-- 30_encoding.md R50, 60_exceptions.md R93: a reserved opcode fails with `ERR_OP`, whatever the operand and the phase,
and changes no register; and exactly the opcodes of those ranges do. -/
def Obligations.ReservedOpcodesFailAndNoOthers : Prop :=
  ∀ (s : State) (w : CmdWord) (rest : List HostEvent), s.port.offer = none →
    ∃ t a, step { s with inbox := .command w :: rest } = .next t ∧ t.port.rsp = some a ∧
      (reserved (opField w) → a = ⟨.errOp, 0⟩ ∧ t.regs = s.regs) ∧ (¬reserved (opField w) → a.status ≠ .errOp)

/-- 60_exceptions.md R94, 30_encoding.md R51: the causes of `ERR_ARG`, exhaustively; it returns data 0 and changes no
state. -/
def Obligations.OperandErrorsAreExactlyErrArg : Prop :=
  ∀ (i : Instr) (s : State),
    (operandError i ↔ Gives i s s.regs ⟨.errArg, 0⟩) ∧ (operandError i ↔ i.wf = false) ∧
      ∃ t a, exec i s = .next t ∧ t.port.rsp = some a ∧ (a.status = .errArg ↔ operandError i)

/-- 60_exceptions.md R95, R96, R97, R98, 30_encoding.md R49: every word has one outcome in every state; of the failures
whose cause is present the one reported is the first in the fixed order, and where none is, the command succeeds. -/
def Obligations.FailuresAreReportedInPriorityOrder : Prop :=
  ∀ (s : State) (w : CmdWord) (rest : List HostEvent), s.port.offer = none →
    ∃ t a, step { s with inbox := .command w :: rest } = .next t ∧ t.port.rsp = some a ∧
      (∀ op, decode w = .reservedOpcode op → a = ⟨.errOp, 0⟩) ∧
      (∀ i, decode w = .instr i → operandError i → a = ⟨.errArg, 0⟩) ∧
      (∀ i, decode w = .instr i → ¬operandError i → isSet i → s.regs.active = true → a = ⟨.errBusy, 0⟩) ∧
      (∀ i, decode w = .instr i → ¬operandError i → sequenceError s.regs i → a = ⟨.errSeq, 0⟩) ∧
      (∀ i, decode w = .instr i → ¬operandError i → configError s.regs i → a = ⟨.errCfg, 0⟩) ∧
      (∀ i, decode w = .instr i → ¬operandError i → ¬(isSet i ∧ s.regs.active = true) → ¬sequenceError s.regs i →
        ¬configError s.regs i → a.status = .ok)

/-- 60_exceptions.md R99: a command whose status is not `OK` writes no register and no flag. -/
def Obligations.FailedCommandsWriteNothing : Prop :=
  ∀ (s t : State) (w : CmdWord) (rest : List HostEvent) (a : Response),
    step { s with inbox := .command w :: rest } = .next t → t.port.rsp = some a → a.status ≠ .ok →
      t.regs = s.regs ∧ a.data = 0

/-- 60_exceptions.md R100: the command after a failed one is executed exactly as if the failed one had not been sent:
the same registers, the same response (words as steps, the outstanding response taken first, the offer: log entries 1, 4,
8). -/
def Obligations.FailedCommandsAreAsIfNotSent : Prop :=
  ∀ (s t : State) (w w' : CmdWord) (a : Response), s.port.offer = none →
    runs s (commands [w]) = .next t → t.port.rsp = some a → a.status ≠ .ok →
      ∃ u v, runs s (commands [w, w']) = .next u ∧ runs s (commands [w']) = .next v ∧ u.regs = v.regs ∧
        u.port.rsp = v.port.rsp

/-- 30_encoding.md R55: what each command returns with `OK`, and 0 with any other status. -/
def Obligations.ResponseDataPerCommand : Prop :=
  ∀ (i : Instr) (s : State), ∃ t a, exec i s = .next t ∧ t.port.rsp = some a ∧
    (a.status = .ok → a.data = returned s.regs i) ∧ (a.status ≠ .ok → a.data = 0)

/-- 30_encoding.md R46, 60_exceptions.md R92: the response word holds the status code at 35:32 and the data at 31:0, the
codes 6 to 15 are never sent, and a host reads back what was sent. -/
def Obligations.ResponseWordsRoundTrip : Prop :=
  (∀ a : Response, a.encode.toNat = a.status.code.toNat * 2 ^ 32 + a.data.toNat ∧ a.status.code.toNat ≤ 5 ∧
      Response.decode a.encode = some a) ∧
    (∀ (v : RspWord) (a : Response), Response.decode v = some a → a.encode = v) ∧
    (∀ v : RspWord, 6 ≤ v.toNat / 2 ^ 32 → Response.decode v = none) ∧
    Status.ok.code = 0 ∧ Status.errOp.code = 1 ∧ Status.errArg.code = 2 ∧ Status.errBusy.code = 3 ∧
    Status.errSeq.code = 4 ∧ Status.errCfg.code = 5

/-- The frame of every command (00_scope.md section 5.3: a register not assigned in a command's pseudocode keeps its
value): it changes the registers it may change, presents a response, and leaves the rest of the channels and the host's
events. -/
def Obligations.CommandsChangeOnlyTheirRegisters : Prop :=
  ∀ (i : Instr) (s t : State), exec i s = .next t →
    mayChange s.regs t.regs i ∧ t.inbox = s.inbox ∧ t.port = { s.port with rsp := t.port.rsp }

/-! ## Encoding -/

/-- 30_encoding.md R45, R48: decoding the word of a command gives it back, for every operand. -/
def Obligations.DecodeOfEncodeIsTheCommand : Prop := ∀ i : Instr, decode (encode i) = .instr i

/-- 30_encoding.md R45, R48: a word that decodes to a command is the word of that command, and the assembler gives it
exactly where the operand fits its form (R53). -/
def Obligations.EncodeOfDecodeIsTheWord : Prop :=
  ∀ (w : CmdWord) (i : Instr), decode w = .instr i →
    encode i = w ∧ (i.wf = true → assemble i = some w) ∧ (i.wf = false → assemble i = none)

/-- 30_encoding.md R48, R52, R53: words written out from the opcode map decode to the commands they stand for, and the
lines of R53 assemble to the words it gives, or are refused. -/
def Obligations.SampleWordsDecode : Prop :=
  (decode 0x0000000000 = .instr (.nop 0) ∧ decode 0xFFFFFFFFFF = .reservedOpcode 0xFF ∧
    decode 0x1000000010 = .instr (.setw 16) ∧ decode 0x1100001021 = .instr (.setp 0x1021) ∧
    decode 0x1400000003 = .instr (.setr 3) ∧ decode 0x2600000000 = .instr (.getres 0) ∧
    decode 0x3100000031 = .instr (.pushb 0x31) ∧ decode 0x3300000000 = .reservedOpcode 0x33) ∧
  Listing.assembleLine "SETW 16".toList = some [0x1000000010] ∧
  Listing.assembleLine "SETP 0x1021".toList = some [0x1100001021] ∧
  Listing.assembleLine "SETR 1, 1".toList = some [0x1400000003] ∧
  Listing.assembleLine "PUSHB 0x31".toList = some [0x3100000031] ∧
  Listing.assembleLine "START".toList = some [0x3000000000] ∧
  Listing.assembleLine "FINISH".toList = some [0x3200000000] ∧
  Listing.assembleLine "SETW 33".toList = none ∧ Listing.assembleLine "PUSHB 0x100".toList = none

/-- 10_state.md R9: the low nibble of a `SET` or `GET` opcode is the index of the register it reaches; the indices 7 to
15 name none. -/
def Obligations.OpcodeLowNibbleIsTheRegisterIndex : Prop :=
  (∀ i : Instr, (i.opcode.extractLsb' 4 4 = 2 → ∃ n, RegName.ofIndex (i.opcode.extractLsb' 0 4) = some n ∧
      ∀ s t a, exec i s = .next t → t.port.rsp = some a → a.status = .ok → a.data = s.regs.read n)) ∧
    (∀ i : Instr, isSet i → i.opcode.extractLsb' 4 4 = 1 ∧ ∃ n, RegName.ofIndex (i.opcode.extractLsb' 0 4) = some n ∧
      ∀ s t a, exec i s = .next t → t.port.rsp = some a → a.status = .ok → t.regs = s.regs.write i.arg n) ∧
    ∀ ix : BitVec 4, 7 ≤ ix.toNat → RegName.ofIndex ix = none

/-! ## Step and channels -/

/-- 10_state.md R28, 30_encoding.md R44, R49: a command handed over is executed as the decoded command, once the
outstanding response was taken and the engine is out of reset; and so is the word of `withFetchWord` (log entries 1, 2, 4, 8,
14). -/
def Obligations.StepExecutesTheDecodedCommand : Prop :=
  ∀ (s : State) (w : CmdWord) (i : Instr) (rest : List HostEvent), decode w = .instr i →
    let ready : Port := ⟨none, 0, false, none, s.port.taken ++ s.port.rsp.toList⟩
    (s.port.offer = none ∨ s.port.offer = some w →
      step { s with inbox := .command w :: rest } = exec i ⟨s.regs, ready, rest⟩) ∧
    step (s.withFetchWord 40 w.toNat) = exec i ⟨s.regs, ready, s.inbox⟩ ∧ decodeTableWord 40 w.toNat = some i

/-- 30_encoding.md R44, 60_exceptions.md R105, 70_reset_and_hazards.md R108: at an edge a word is accepted exactly if
`rst = 0`, `cmd_valid = 1` and `cmd_ready = 1`, and then it is executed, or answered with `ERR_OP`; that its effect falls on
that edge is the model's (log entries 6, 7). At any other edge no response comes to be, and with `rst = 0` no register
changes; at an edge with `cmd_ready = 1` and `cmd_valid = 0` nothing at all. What the channels do at the others is said in
full (the end of reset, the latency, the offer: log entries 5, 6, 7, 8). -/
def Obligations.AcceptingEdgeExecutesTheCommand : Prop :=
  ∀ (s : State) (pins : Pins) (rest : List HostEvent),
    (pins.rst = false → pins.cmdValid = true → s.port.cmdReady = true →
      s.port.offer = none ∨ s.port.offer = some pins.cmd →
        let p : Port := { s.port with offer := none, wait := Config.latency (opField pins.cmd) - 1 }
        (∀ i, decode pins.cmd = .instr i →
          step { s with inbox := .edge pins :: rest } = exec i ⟨s.regs, p, rest⟩) ∧
        (∀ op, decode pins.cmd = .reservedOpcode op →
          step { s with inbox := .edge pins :: rest } =
            .next ⟨s.regs, { p with rsp := some ⟨.errOp, 0⟩ }, rest⟩)) ∧
    (pins.rst = false → pins.cmdValid = false → s.port.cmdReady = true → s.port.offer = none →
      step { s with inbox := .edge pins :: rest } = .next ⟨s.regs, s.port, rest⟩) ∧
    ∀ t, step { s with inbox := .edge pins :: rest } = .next t →
      ¬(pins.rst = false ∧ pins.cmdValid = true ∧ s.port.cmdReady = true) →
        t.inbox = rest ∧ (t.port.rsp = none ∨ t.port.rsp = s.port.rsp) ∧
        (pins.rst = false → t.regs = s.regs ∧ t.port.inReset = false ∧ t.port.offer = pins.offered) ∧
        (pins.rst = false → s.port.inReset = true →
          t.port = { s.port with inReset := false, offer := pins.offered }) ∧
        (pins.rst = false → s.port.inReset = false → s.port.rsp ≠ none →
          t.port.wait = s.port.wait - 1 ∧
            ((t.port.rsp = s.port.rsp ∧ t.port.taken = s.port.taken) ∨
              (s.port.rspValid = true ∧ pins.rspReady = true ∧ t.port.rsp = none ∧
                t.port.taken = s.port.taken ++ s.port.rsp.toList)))

/-- 30_encoding.md R44, 20_memory.md R39: while a response is outstanding no command is accepted: an edge with `rst = 0`
leaves the registers, and the response is held, or taken where it is valid and the host is ready for it. That the
registers stay while the latency still runs holds because the command's effect falls on its accepting edge, which is the
model's choice (log entry 7; 00_scope.md section 5.2 has a write take effect when the command completes); the record of
the responses taken is the model's too (log entry 3). -/
def Obligations.NoCommandIsAcceptedBeforeTheResponseIsTaken : Prop :=
  ∀ (s t : State) (pins : Pins) (a : Response) (rest : List HostEvent), pins.rst = false → s.port.inReset = false →
    s.port.rsp = some a → step { s with inbox := .edge pins :: rest } = .next t →
      s.port.cmdReady = false ∧ t.regs = s.regs ∧
      (s.port.rspValid = true ∧ pins.rspReady = true →
        t.port.rsp = none ∧ t.port.taken = s.port.taken ++ [a] ∧ t.port.cmdReady = true) ∧
      (¬(s.port.rspValid = true ∧ pins.rspReady = true) →
        t.port.rsp = some a ∧ t.port.taken = s.port.taken ∧ t.port.cmdReady = false)

/-- 20_memory.md R38, R39: exactly one response for each command, in the order of the commands, each there right after its
own command (words as steps, the record of the responses taken, when they are taken, the offer: log entries 1, 3, 4, 8). -/
def Obligations.OneResponsePerCommandInOrder : Prop :=
  ∀ (s : State) (ws : List CmdWord), s.port.offer = none →
    ∃ as : List Response, as.length = ws.length ∧
      ∀ k, k ≤ ws.length → ∃ t, Host.Core.run Sys2Proof.core k { s with inbox := commands ws } = .next t ∧
        t.port.taken ++ t.port.rsp.toList = s.port.taken ++ s.port.rsp.toList ++ as.take k

/-- 70_reset_and_hazards.md R118, R117: a command accepted at an edge is answered `LAT(op)` cycles later, whatever the
command, the state and the host's `rsp_ready`, and not before (counted as log entries 6, 7 say, for every value of
`LAT`; the offer: log entry 8); and the response stays until the host takes it. -/
def Obligations.EveryAcceptedCommandIsAnsweredInTime : Prop :=
  (∀ (s : State) (pins : Pins) (o : Option CmdWord) (waits : List Pins), pins.rst = false → pins.cmdValid = true →
    s.port.cmdReady = true → s.port.heldBy (some pins.cmd) = true →
    (∀ p ∈ waits, p.rst = false ∧ p.offered = o) → waits.length < Config.latency (opField pins.cmd) →
      ∃ t, runs s (.edge pins :: waits.map .edge) = .next t ∧ t.port.cmdReady = false ∧
        (t.port.rspValid = true ↔ waits.length + 1 = Config.latency (opField pins.cmd))) ∧
  ∀ (s : State) (pins : Pins), pins.rst = false → pins.rspReady = false → s.port.rspValid = true →
    s.port.inReset = false → s.port.heldBy pins.offered = true →
      ∃ t, runs s [.edge pins] = .next t ∧ t.port.rspValid = true ∧ t.port.rsp = s.port.rsp ∧ t.regs = s.regs

/-- 30_encoding.md R44, last sentence, and 70_reset_and_hazards.md R108: the acts of the host at the level of words are
sequences of clock edges (log entries 1, 4, 5, 6, 7, 8). A command is the accepting edge and the edges of its latency; where
the engine is still in reset, one edge before them; where a response is outstanding, the taking of it before them. A
taking is the edges of the latency still to run and one more, all with `rsp_ready = 1`; with nothing outstanding it is no
edge at all. A reset is an edge with `rst = 1` and one without. -/
def Obligations.HostActsAreSequencesOfEdges : Prop :=
  ∀ (s : State) (rest : List HostEvent),
    (∀ (w : CmdWord) (ready : Bool), s.port.cmdReady = true → s.port.heldBy (some w) = true →
      Host.Core.run Sys2Proof.core (Config.latency (opField w))
          { s with inbox := .edge ⟨false, true, w, ready⟩ ::
              (List.replicate (Config.latency (opField w) - 1) (.edge idlePins) ++ rest) } =
        step { s with inbox := .command w :: rest }) ∧
    (∀ w : CmdWord, s.port.Inv → s.port.inReset = true →
      Host.Core.run Sys2Proof.core 2 { s with inbox := .edge idlePins :: .command w :: rest } =
        step { s with inbox := .command w :: rest }) ∧
    (∀ w : CmdWord, s.port.heldBy (some w) = true →
      Host.Core.run Sys2Proof.core 2 { s with inbox := .take :: .command w :: rest } =
        step { s with inbox := .command w :: rest }) ∧
    (∀ pins : Pins, pins.rst = false → pins.rspReady = true → pins.offered = s.port.offer → s.port.rsp ≠ none →
      s.port.inReset = false →
        Host.Core.run Sys2Proof.core (s.port.wait + 1)
            { s with inbox := List.replicate (s.port.wait + 1) (.edge pins) ++ rest } =
          step { s with inbox := .take :: rest }) ∧
    (s.port.Inv → s.port.rsp = none → step { s with inbox := .take :: rest } = .next { s with inbox := rest }) ∧
    ∀ on : Pins, on.rst = true →
      Host.Core.run Sys2Proof.core 2 { s with inbox := .edge on :: .edge idlePins :: rest } =
        step { s with inbox := .reset :: rest }

/-- 60_exceptions.md R91, R105, 93_implementation_defined.md U12: a step always answers a next state, but where the host
drops or changes a word it offered; without a host event the engine keeps its state (log entries 8, 9). -/
def Obligations.StepStopsOnlyOnABrokenHandshake : Prop :=
  ∀ s : State,
    (s.inbox = [] → step s = .next s) ∧
    ((∃ t, step s = .next t) ∨ step s = .refused .hostBrokeHandshake) ∧
    (step s = .refused .hostBrokeHandshake ↔
      ∃ (w : CmdWord) (rest : List HostEvent), s.port.offer = some w ∧
        ((∃ v, s.inbox = .command v :: rest ∧ v ≠ w) ∨
          ∃ p, s.inbox = .edge p :: rest ∧ p.rst = false ∧ ¬(p.cmdValid = true ∧ p.cmd = w)))

/-! ## Whole-machine rules -/

/-- 10_state.md R23: every step keeps the invariants. -/
def Obligations.StepKeepsTheInvariants : Prop :=
  ∀ (s t : State) (last : Option (BitVec 6)), s.regs.Inv → s.regs.ResultInv last → step s = .next t →
    t.regs.Inv ∧ t.regs.ResultInv (lastWidth s t last)

/-- 10_state.md R23, R27: the invariants of the registers hold after reset; and so does the order of the channels, which
is the model's own invariant (70_reset_and_hazards.md R107 with log entries 5, 7, 8). -/
def Obligations.ResetMeetsTheInvariants : Prop :=
  State.reset.regs.Inv ∧ State.reset.regs.ResultInv none ∧ State.reset.port.Inv

/-- 30_encoding.md R44, 70_reset_and_hazards.md R107: every step keeps the channels in order: latency runs only for a
command in progress, and in reset nothing is outstanding (log entries 5, 7, 8). -/
def Obligations.StepKeepsTheChannelsInOrder : Prop :=
  ∀ s t : State, s.port.Inv → step s = .next t → t.port.Inv

/-- 10_state.md R22: in which phases each command succeeds, and which commands change the phase. -/
def Obligations.PhasesAndTheirTransitions : Prop :=
  ∀ (i : Instr) (s : State), s.regs.Inv → ∃ t a, exec i s = .next t ∧ t.port.rsp = some a ∧
    (¬operandError i → (a.status = .ok ↔ succeedsIn s.regs.phase s.regs.rvalid i)) ∧
    (a.status = .ok → t.regs.phase = phaseAfter s.regs.phase i) ∧ (a.status ≠ .ok → t.regs.phase = s.regs.phase)

/-- 10_state.md R19, R20, R21: what writes the two flags, of the commands and of the whole engine: a step that changes
`ACTIVE` or `RVALID` is a reset, or accepts the word of a successful `START`, a successful `FINISH` or `SRST`, and leaves
the flags these give (30_encoding.md R44, 70_reset_and_hazards.md R107 for the edges). That a step is an act of the host
is log entry 1, and that the flag changes at the very edge that accepts the word is the model's choice, log entry 7. -/
def Obligations.FlagsAreWrittenByStartFinishSrstOnly : Prop :=
  (∀ (i : Instr) (s t : State) (a : Response), exec i s = .next t → t.port.rsp = some a →
    (i = .start 0 ∧ a.status = .ok → t.regs.active = true ∧ t.regs.rvalid = false) ∧
    (i = .finish 0 ∧ a.status = .ok → t.regs.active = false ∧ t.regs.rvalid = true) ∧
    (i = .srst 0 → t.regs.active = false ∧ t.regs.rvalid = false) ∧
    (¬((i = .start 0 ∨ i = .finish 0) ∧ a.status = .ok) → i ≠ .srst 0 →
      t.regs.active = s.regs.active ∧ t.regs.rvalid = s.regs.rvalid)) ∧
  ∀ s t : State, step s = .next t →
    (resets s → t.regs.active = false ∧ t.regs.rvalid = false) ∧
    (t.regs.active ≠ s.regs.active ∨ t.regs.rvalid ≠ s.regs.rvalid →
      resets s ∨
      (accepts s 0x3000000000 ∧ s.regs.width ≠ 0 ∧ t.regs.active = true ∧ t.regs.rvalid = false) ∨
      (accepts s 0x3200000000 ∧ s.regs.active = true ∧ t.regs.active = false ∧ t.regs.rvalid = true) ∨
      (accepts s 0x0100000000 ∧ t.regs.active = false ∧ t.regs.rvalid = false))

/-- 10_state.md R24: the parameter set is fixed for the whole of a computation: no step changes it while `ACTIVE = 1`,
but one that resets the engine and so ends the computation; the `SET`s answer `ERR_BUSY`. -/
def Obligations.ParametersAreFixedDuringAComputation : Prop :=
  (∀ s t : State, s.regs.active = true → step s = .next t →
    t.regs.params = s.regs.params ∨ t.regs = Regs.reset) ∧
  ∀ (i : Instr) (s : State), isSet i → ¬operandError i → s.regs.active = true → Gives i s s.regs ⟨.errBusy, 0⟩

/-- 10_state.md R18: `RESULT` keeps its value until the next successful `FINISH`, `SRST` or reset. -/
def Obligations.ResultStaysUntilFinishOrReset : Prop :=
  (∀ (i : Instr) (s t : State), exec i s = .next t → i ≠ .srst 0 → ¬(i = .finish 0 ∧ s.regs.active = true) →
    t.regs.result = s.regs.result) ∧
  ∀ s t : State, step s = .next t → t.regs.result = s.regs.result ∨ t.regs = Regs.reset ∨
    (s.regs.active = true ∧ t.regs.active = false ∧ t.regs.rvalid = true)

/-- 20_memory.md R40: `START` is idempotent in its effect, a second `FINISH` fails with `ERR_SEQ`, and no `GET` has a
side effect. -/
def Obligations.StartIsIdempotentFinishIsNot : Prop :=
  (∀ s t u : State, exec (.start 0) s = .next t → exec (.start 0) t = .next u → u = t) ∧
    (∀ s t : State, exec (.finish 0) s = .next t → Gives (.finish 0) t t.regs ⟨.errSeq, 0⟩) ∧
    ∀ (i : Instr) (s t : State), i.opcode.extractLsb' 4 4 = 2 → exec i s = .next t →
      t.regs = s.regs ∧ exec i t = .next t

/-- 10_state.md R26, 93_implementation_defined.md U8, U9: what cannot be read cannot matter: two machines that differ at
most in `ACC` while no computation is in progress and in `RESULT` while it is not valid go on in step, with the same
responses. -/
def Obligations.HiddenRegistersCannotBeObserved : Prop :=
  ∀ (s t s' : State), SameVisible s.regs t.regs → t.port = s.port → t.inbox = s.inbox → step s = .next s' →
    ∃ t', step t = .next t' ∧ SameVisible s'.regs t'.regs ∧ t'.port = s'.port ∧ t'.inbox = s'.inbox

/-! ## The computation -/

/-- 41_compute.md R68. -/
def Obligations.MaskHasTheLowBitsSet : Prop :=
  (∀ W, 1 ≤ W → W ≤ 32 → (Crc.mask W).toNat = 2 ^ W - 1 ∧ ∀ i, (Crc.mask W).getLsbD i = decide (i < W)) ∧
    Crc.mask 8 = 0xFF ∧ Crc.mask 16 = 0xFFFF ∧ Crc.mask 32 = 0xFFFFFFFF ∧ Crc.mask 5 = 0x1F ∧ Crc.mask 1 = 1

/-- 41_compute.md R69. -/
def Obligations.ReflectReversesTheLowBits : Prop :=
  (∀ (n : Nat) (v : Word), 1 ≤ n → n ≤ 32 →
    (∀ i, i < n → (Crc.reflect n v).getLsbD (n - 1 - i) = v.getLsbD i) ∧
    (∀ j, n ≤ j → (Crc.reflect n v).getLsbD j = false) ∧
    Crc.reflect n (Crc.reflect n v) = v &&& Crc.mask n) ∧
  Crc.reflect 8 0x31 = 0x8C ∧ Crc.reflect 8 0x01 = 0x80 ∧ Crc.reflect 16 1 = 0x8000 ∧ Crc.reflect 5 0b00110 = 0b01100 ∧
    ∀ v : Word, Crc.reflect 1 v = BitVec.ofNat 32 (v.getLsbD 0).toNat

/-- 41_compute.md R70, bit by bit: the feedback is the top bit exclusive-or the message bit; bit `i` comes from bit
`i-1`, exclusive-or the polynomial's bit where the feedback is 1; bits `31:W` are 0. The form is one the spec takes from
general knowledge (93_implementation_defined.md G1, log entry 16). -/
def Obligations.CrcStepBitByBit : Prop :=
  ∀ (W : Nat) (P a : Word) (b : Bool), 1 ≤ W → W ≤ 32 →
    let fb := Bool.xor (a.getLsbD (W - 1)) b
    (Crc.crcStep W P a b).getLsbD 0 = (fb && P.getLsbD 0) ∧
    (∀ i, 1 ≤ i → i < W → (Crc.crcStep W P a b).getLsbD i = Bool.xor (a.getLsbD (i - 1)) (fb && P.getLsbD i)) ∧
    ∀ i, W ≤ i → (Crc.crcStep W P a b).getLsbD i = false

/-- 41_compute.md R75 (i), (ii), (iii): the laws of one step that the agreement rests on. -/
def Obligations.CrcStepIsLinear : Prop :=
  ∀ (W : Nat) (P a c : Word) (b : Bool), 1 ≤ W → W ≤ 32 →
    (Crc.crcStep W P a b = Crc.crcStep W P (a ^^^ (BitVec.ofNat 32 b.toNat <<< (W - 1))) false) ∧
    (Crc.crcStep W P (a ^^^ c) false = Crc.crcStep W P a false ^^^ Crc.crcStep W P c false) ∧
    (c.getLsbD (W - 1) = false → ClearAbove W c → Crc.crcStep W P c false = c <<< 1)

/-- 20_memory.md R34, 41_compute.md R71: with `REFIN = 0` the bits of a byte enter from bit 7 to bit 0, with `REFIN = 1`
from bit 0 to bit 7, and the register shifts the same way. -/
def Obligations.BytesEnterBitByBit : Prop :=
  ∀ (W : Nat) (P a : Word) (rin : Bool) (d : Byte),
    Crc.absorbByte W P rin a d = (entryBits rin d).foldl (Crc.crcStep W P) a

/-- 41_compute.md R72, R85: the final XOR comes before the output reflection. For a value that is its own reflection the
order does not matter, and for a catalogue's value applied after reflection its reflection is to be passed. -/
def Obligations.FinalXorComesBeforeReflection : Prop :=
  (∀ (W : Nat) (X a : Word), 1 ≤ W → W ≤ 32 → ClearAbove W a →
    Crc.finalize W X false a = a ^^^ (X &&& Crc.mask W) ∧
    Crc.finalize W X true a = Crc.reflect W (a ^^^ (X &&& Crc.mask W)) ∧
    (Crc.reflect W X = X &&& Crc.mask W → Crc.finalize W X true a = Crc.reflect W a ^^^ (X &&& Crc.mask W)) ∧
    Crc.finalize W (Crc.reflect W X) true a = Crc.reflect W a ^^^ (X &&& Crc.mask W)) ∧
  Crc.finalize 8 0x01 true 0x00 = 0x80 ∧ Crc.reflect 8 0x00 ^^^ 0x01 = 0x01

/-- 41_compute.md R75, R74: the document's windowed algorithm computes the same checksum wherever it is defined. -/
def Obligations.WindowedAlgorithmAgrees : Prop :=
  ∀ (p : Crc.Params) (m : List Byte), p.width ∈ [8, 16, 24, 32] → p.width / 8 ∣ m.length →
    Crc.checksumWindowed p m = Crc.checksum p m

/-- 41_compute.md R77: for a width that 8 divides and any length, whole windows and then, for the bytes left over, a short
window at the most significant end followed by 8 steps a byte, give the checksum. -/
def Obligations.ShortLastWindowIsAlignedToTheTop : Prop :=
  ∀ (p : Crc.Params) (m : List Byte), p.width ∈ [8, 16, 24, 32] →
    let B := p.width / 8
    Crc.checksum p m =
      Crc.finalize p.width p.xorout p.refout
        (Crc.absorbShortWindow p.width p.poly p.refin (Crc.absorbWindows p m (m.length / B))
          (m.drop (B * (m.length / B))))

/-- 41_compute.md R76: the byte form, for widths 8 to 32. -/
def Obligations.ByteFormAgrees : Prop :=
  ∀ (W : Nat) (P a : Word) (rin : Bool) (d : Byte), 8 ≤ W → W ≤ 32 →
    Crc.absorbByte W P rin a d = Crc.absorbByteForm W P rin a d

/-- 41_compute.md R78 (g): linearity over exclusive-or, for three messages of equal length. -/
def Obligations.ChecksumIsLinear : Prop :=
  ∀ (p : Crc.Params) (m₁ m₂ m₃ : List Byte), 1 ≤ p.width → p.width ≤ 32 → p.refout = false →
    m₁.length = m₂.length → m₂.length = m₃.length →
      Crc.checksum p m₁ ^^^ Crc.checksum p m₂ ^^^ Crc.checksum p m₃ =
        Crc.checksum p ((m₁.zipWith (· ^^^ ·) m₂).zipWith (· ^^^ ·) m₃)

/-- 41_compute.md R78 (e), 40_config.md R58, 70_reset_and_hazards.md R111: with no polynomial bit below the width no
message bit enters: after `W` steps the register is 0, and with the reset values of the other parameters the checksum
of every message is 0. -/
def Obligations.ZeroPolynomialForgetsTheMessage : Prop :=
  (∀ (W : Nat) (P a : Word) (bs : List Bool), 1 ≤ W → W ≤ 32 → P &&& Crc.mask W = 0 → W ≤ bs.length →
    bs.foldl (Crc.crcStep W P) a = 0) ∧
  ∀ (W : Nat) (m : List Byte), 1 ≤ W → W ≤ 32 → Crc.checksum ⟨W, 0, 0, 0, false, false⟩ m = 0

/-- 10_state.md R30: bits of `POLY`, `INIT`, `XOROUT` at and above the width never influence a checksum. -/
def Obligations.BitsAboveTheWidthNeverMatter : Prop :=
  ∀ (p q : Crc.Params) (m : List Byte), q.width = p.width → q.refin = p.refin → q.refout = p.refout →
    q.poly &&& Crc.mask p.width = p.poly &&& Crc.mask p.width →
    q.init &&& Crc.mask p.width = p.init &&& Crc.mask p.width →
    q.xorout &&& Crc.mask p.width = p.xorout &&& Crc.mask p.width →
      Crc.checksum q m = Crc.checksum p m

/-- 41_compute.md R78, 00_scope.md glossary "polynomial": the running CRC is a remainder of polynomials over the
two-element field: of the initial value and the message, each moved up by its place, modulo the generator. The normal
form of the polynomial and the form of the single step are ones the spec takes from general knowledge
(93_implementation_defined.md G1, G2, log entry 16). -/
def Obligations.RunningCrcIsThePolynomialRemainder : Prop :=
  ∀ (p : Crc.Params) (m : List Byte), 1 ≤ p.width → p.width ≤ 32 →
    (generator p.width p.poly).Monic ∧
    polyOf p.width (Crc.absorb p (p.init &&& Crc.mask p.width) m) =
      (polyOf p.width p.init * Polynomial.X ^ (8 * m.length) +
          bitsPoly (m.flatMap (entryBits p.refin)) * Polynomial.X ^ p.width) %ₘ generator p.width p.poly

/-- 41_compute.md R83, 60_exceptions.md R100, 70_reset_and_hazards.md R116: `START`, any words that neither begin, end nor
abandon a computation, `FINISH`: the checksum of the bytes pushed by the legal `PUSHB`s among them is returned and kept,
each of those `PUSHB`s answers `OK`, and the parameters are unchanged; commands that fail or read leave no trace. That the
responses taken are recorded, and when they are taken, is the model's (log entries 3, 4). -/
def Obligations.WholeComputationReturnsTheChecksum : Prop :=
  ∀ (s : State) (body : List CmdWord), s.port.offer = none → s.regs.width ≠ 0 → (∀ w ∈ body, ¬steers w) →
    let p := s.regs.params
    let c := Crc.checksum p (message body)
    ∃ t as, runs s (commands ([0x3000000000] ++ body ++ [0x3200000000])) = .next t ∧
      t.port.taken = s.port.taken ++ s.port.rsp.toList ++ [⟨.ok, 0⟩] ++ as ∧
      List.Forall₂ (fun w a => message [w] ≠ [] → a = ⟨.ok, 0⟩) body as ∧
      t.port.rsp = some ⟨.ok, c⟩ ∧ t.regs.params = p ∧ t.regs.result = c ∧ t.regs.rvalid = true ∧
      t.regs.active = false

/-- 41_compute.md R84, 10_state.md R25: the value returned depends on the parameters and the message alone, not on the
state before or on what else was sent in between. -/
def Obligations.ChecksumDependsOnParametersAndMessageAlone : Prop :=
  ∀ (s s' : State) (body body' : List CmdWord), s.port.offer = none → s'.port.offer = none → s.regs.width ≠ 0 →
    s'.regs.params = s.regs.params → (∀ w ∈ body, ¬steers w) → (∀ w ∈ body', ¬steers w) →
    message body' = message body →
      ∃ t t', runs s (commands ([0x3000000000] ++ body ++ [0x3200000000])) = .next t ∧
        runs s' (commands ([0x3000000000] ++ body' ++ [0x3200000000])) = .next t' ∧
        t'.port.rsp = t.port.rsp ∧ t'.regs.result = t.regs.result

/-- 70_reset_and_hazards.md R112, R111, 30_encoding.md R54: from any state with no computation in progress, `CONFIG` and
`CHECKSUM` answer `OK` to every command and return the checksum of the text under the parameters given. That the
responses taken are recorded, and when they are taken, is the model's (log entries 3, 4). -/
def Obligations.CanonicalSequenceComputesTheChecksum : Prop :=
  ∀ (s : State) (w poly init xorout : Word) (refin refout : Bool) (text : List Char), s.port.offer = none →
    s.regs.active = false → 1 ≤ w.toNat → w.toNat ≤ 32 → (∀ c ∈ text, c.toNat ≤ 127) →
    let is := Pseudo.config w poly init xorout refin refout ++ Pseudo.checksum text
    let c := Crc.checksum ⟨w.toNat, poly, init, xorout, refin, refout⟩ (text.map fun ch => BitVec.ofNat 8 ch.toNat)
    ∃ t, runs s (commands (is.map encode)) = .next t ∧ t.port.rsp = some ⟨.ok, c⟩ ∧
      t.port.taken = s.port.taken ++ s.port.rsp.toList ++ List.replicate (text.length + 6) ⟨.ok, 0⟩

/-- 70_reset_and_hazards.md R111: after reset `START` fails with `ERR_CFG`, whatever was sent before, as long as no `SETW`
succeeded. -/
def Obligations.StartNeedsAWidthFirst : Prop :=
  ∀ (ws : List CmdWord), (∀ w ∈ ws, ∀ arg, decode w = .instr (.setw arg) → operandError (.setw arg)) →
    ∃ t, runs State.reset (commands (ws ++ [0x3000000000])) = .next t ∧ t.port.rsp = some ⟨.errCfg, 0⟩
end

