-- ==== Sys2Proof/Laws/Crc.lean ====
section
/-! SUPPORT. The functions of the checksum bit by bit. -/

namespace Sys2Proof.Machine.Crc

theorem mask_getLsbD (W i : Nat) : (mask W).getLsbD i = (decide (i < 32) && decide (i < W)) := by
  simp [mask, BitVec.getLsbD_ofNat]

theorem and_mask_getLsbD (W i : Nat) (v : Word) : (v &&& mask W).getLsbD i = (decide (i < W) && v.getLsbD i) := by
  rw [BitVec.getLsbD_and, mask_getLsbD]
  by_cases h : i < 32
  · simp [h, Bool.and_comm]
  · simp [BitVec.getLsbD_of_ge v i (by omega)]

theorem reflectLoop_getLsbD (n : Nat) (v : Word) (hn : n ≤ 32) (k : Nat) (hk : k ≤ n) (j : Nat) :
    (reflectLoop n v k).getLsbD j = (decide (n - k ≤ j ∧ j < n) && v.getLsbD (n - 1 - j)) := by
  induction k with
  | zero =>
    have : ¬(n - 0 ≤ j ∧ j < n) := by omega
    rw [decide_eq_false this]
    simp [reflectLoop]
  | succ k ih =>
    have ih := ih (by omega)
    rw [reflectLoop]
    by_cases hj : j = n - 1 - k
    · subst hj
      have e : n - 1 - (n - 1 - k) = k := by omega
      have h1 : (n - (k + 1) ≤ n - 1 - k ∧ n - 1 - k < n) := by omega
      have h2 : ¬(n - k ≤ n - 1 - k ∧ n - 1 - k < n) := by omega
      rw [e] at ih ⊢
      split
      · rename_i hv
        have h3 : n - 1 - k < 32 := by omega
        simp [h1, hv, h3]
      · rename_i hv
        simp [ih, hv]
    · have e : (decide (n - (k + 1) ≤ j ∧ j < n)) = decide (n - k ≤ j ∧ j < n) := by
        apply decide_eq_decide.mpr
        omega
      rw [e, ← ih]
      split
      · have h0 : (1#32 <<< (n - 1 - k)).getLsbD j = false := by
          rw [BitVec.getLsbD_shiftLeft]
          by_cases hlt : j < n - 1 - k
          · simp [hlt]
          · have : j - (n - 1 - k) ≠ 0 := by omega
            simp [BitVec.getLsbD_one, this]
        rw [BitVec.getLsbD_or, h0, Bool.or_false]
      · rfl

theorem reflect_getLsbD (n : Nat) (v : Word) (hn : n ≤ 32) (j : Nat) :
    (reflect n v).getLsbD j = (decide (j < n) && v.getLsbD (n - 1 - j)) := by
  rw [reflect, reflectLoop_getLsbD n v hn n (le_refl n)]
  simp

theorem crcStep_getLsbD (W : Nat) (P a : Word) (b : Bool) (i : Nat) :
    (crcStep W P a b).getLsbD i =
      (decide (i < W) && ((decide (1 ≤ i ∧ i < 32) && a.getLsbD (i - 1)) ^^ ((a.getLsbD (W - 1) ^^ b) && P.getLsbD i))) := by
  have ht : ((a <<< 1) &&& mask W).getLsbD i = (decide (i < W) && (decide (1 ≤ i ∧ i < 32) && a.getLsbD (i - 1))) := by
    rw [and_mask_getLsbD, BitVec.getLsbD_shiftLeft]
    congr 1
    by_cases h1 : i < 1 <;> by_cases h2 : i < 32 <;> simp [h1, h2]
    all_goals omega
  simp only [crcStep]
  split
  · rename_i h
    rw [BitVec.getLsbD_xor, ht, and_mask_getLsbD, h]
    cases decide (i < W) <;> simp
  · rename_i h
    rw [ht, Bool.not_eq_true _ |>.mp h]
    simp

/-- Two register values are equal if their 32 bits are. -/
theorem eq_of_bits {v u : Word} (h : ∀ i, v.getLsbD i = u.getLsbD i) : v = u :=
  BitVec.eq_of_getLsbD_eq fun i _ => h i

/-- Bits at and above the width never come out of a step. -/
theorem crcStep_clear (W : Nat) (P a : Word) (b : Bool) (i : Nat) (h : W ≤ i) : (crcStep W P a b).getLsbD i = false := by
  rw [crcStep_getLsbD]
  simp [show ¬i < W by omega]

theorem finalize_getLsbD_clear (W : Nat) (X a : Word) (rout : Bool) (i : Nat) (h : W ≤ i) :
    (finalize W X rout a).getLsbD i = false := by
  simp only [finalize]
  rw [and_mask_getLsbD]
  simp [show ¬i < W by omega]

theorem absorbBits_clear (W : Nat) (P e : Word) (k : Nat) (a : Word) (hk : k ≠ 0) (i : Nat) (h : W ≤ i) :
    (absorbBits W P e k a).getLsbD i = false := by
  induction k generalizing a with
  | zero => exact absurd rfl hk
  | succ k ih =>
    rw [absorbBits]
    by_cases hk' : k = 0
    · subst hk'; exact crcStep_clear W P a _ i h
    · exact ih _ hk'

theorem absorbByte_clear (W : Nat) (P a : Word) (rin : Bool) (d : Byte) (i : Nat) (h : W ≤ i) :
    (absorbByte W P rin a d).getLsbD i = false := absorbBits_clear W P _ 8 a (by decide) i h

end Sys2Proof.Machine.Crc
end

