-- ==== Sys2Proof/Laws/Decode.lean ====
section
/-! SUPPORT. The two fields of an encoded word, and words as numbers. -/

namespace Sys2Proof

/-- A bit of a command word built from its two fields. -/
theorem getLsbD_fields (op : BitVec 8) (arg : Word) (i : Nat) :
    BitVec.getLsbD (op ++ arg : CmdWord) i = if i < 32 then arg.getLsbD i else op.getLsbD (i - 32) :=
  BitVec.getLsbD_append

@[simp] theorem opField_append (op : BitVec 8) (arg : Word) : opField (op ++ arg) = op := by
  apply BitVec.eq_of_getLsbD_eq
  intro i hi
  rw [opField, BitVec.getLsbD_extractLsb', getLsbD_fields]
  simp [hi]

@[simp] theorem argField_append (op : BitVec 8) (arg : Word) : argField (op ++ arg) = arg := by
  apply BitVec.eq_of_getLsbD_eq
  intro i hi
  rw [argField, BitVec.getLsbD_extractLsb', getLsbD_fields]
  simp [hi]

theorem opField_append_argField (w : CmdWord) : opField w ++ argField w = w := by
  apply BitVec.eq_of_getLsbD_eq
  intro i hi
  rw [getLsbD_fields]
  by_cases h : i < 32
  · simp [argField, h]
  · simp only [opField, h, if_false, BitVec.getLsbD_extractLsb', decide_eq_true (show i - 32 < 8 by omega), Bool.true_and]
    congr 1
    omega

@[simp] theorem opField_encode (i : Instr) : opField (encode i) = i.opcode := opField_append _ _

@[simp] theorem argField_encode (i : Instr) : argField (encode i) = i.arg := argField_append _ _

/-- Decoding depends on the opcode through the opcode map alone. -/
theorem decode_of_row (w : CmdWord) (r : Row) (h : opcodeTable.find? (fun r => r.opcode == opField w) = some r) :
    decode w = .instr (r.make (argField w)) := by simp [decode, h]

theorem decode_of_no_row (w : CmdWord) (h : opcodeTable.find? (fun r => r.opcode == opField w) = none) :
    decode w = .reservedOpcode (opField w) := by simp [decode, h]

/-- A word whose number is an opcode byte above an operand. -/
theorem ofNat_opcode_arg (op : BitVec 8) (arg : Word) :
    BitVec.ofNat 40 (op.toNat * 2 ^ 32 + arg.toNat) = op ++ arg := by
  apply BitVec.eq_of_toNat_eq
  have h1 := op.isLt
  have h2 := arg.isLt
  have h3 : BitVec.toNat (op ++ arg : CmdWord) = op.toNat <<< 32 ||| arg.toNat := BitVec.toNat_append ..
  rw [h3, BitVec.toNat_ofNat, Nat.shiftLeft_eq, Nat.mul_comm, ← Nat.two_pow_add_eq_or_of_lt h2]
  omega

end Sys2Proof
end

