-- ==== Sys2Proof/Laws/Operands.lean ====
section
/-! SUPPORT. The operand checks over bits say the same as the number ranges, and the fields as numbers. -/

namespace Sys2Proof.Machine

theorem Operand.fitsA0_iff (arg : Word) : Operand.fitsA0 arg = true ↔ arg = 0 := by simp [Operand.fitsA0]

theorem Operand.fitsA0_false_iff (arg : Word) : Operand.fitsA0 arg = false ↔ arg ≠ 0 := by simp [Operand.fitsA0]

@[simp] theorem Operand.fitsA0_zero : Operand.fitsA0 0 = true := rfl

/-- The same in the form simp writes a literal. -/
@[simp] theorem Operand.fitsA0_ofNat_zero : Operand.fitsA0 0#32 = true := rfl

/-- A field above bit `k` is zero exactly where the number is below `2^k`. -/
theorem Operand.high_zero_iff (arg : Word) (k n : Nat) (h : k + n = 32) :
    arg.extractLsb' k n = 0 ↔ arg.toNat < 2 ^ k := by
  have hlt : arg.toNat < 2 ^ k * 2 ^ n := by rw [← pow_add, h]; exact arg.isLt
  rw [← BitVec.toNat_inj]
  have hz : (0 : BitVec n).toNat = 0 := BitVec.toNat_zero
  simp only [BitVec.extractLsb'_toNat, Nat.shiftRight_eq_div_pow, hz]
  rw [Nat.mod_eq_of_lt (Nat.div_lt_of_lt_mul hlt), Nat.div_eq_zero_iff]
  simp

theorem Operand.fitsAW_iff (arg : Word) : Operand.fitsAW arg = true ↔ 1 ≤ arg.toNat ∧ arg.toNat ≤ 32 := by
  have h := Operand.high_zero_iff arg 6 26 rfl
  have e : (arg.extractLsb' 0 6).toNat = arg.toNat % 64 := by simp [BitVec.extractLsb'_toNat]
  have z : arg.extractLsb' 0 6 = 0 ↔ arg.toNat % 64 = 0 := by rw [← BitVec.toNat_inj, e]; simp
  simp only [Operand.fitsAW, Bool.and_eq_true, beq_iff_eq, bne_iff_ne, ne_eq, h, z, BitVec.ule, e,
    decide_eq_true_eq, show (32 : BitVec 6).toNat = 32 from rfl]
  omega

theorem Operand.fitsAR_iff (arg : Word) : Operand.fitsAR arg = true ↔ arg.toNat ≤ 3 := by
  have h := Operand.high_zero_iff arg 2 30 rfl
  simp only [Operand.fitsAR, beq_iff_eq, h]
  omega

theorem Operand.fitsAB_iff (arg : Word) : Operand.fitsAB arg = true ↔ arg.toNat ≤ 255 := by
  have h := Operand.high_zero_iff arg 8 24 rfl
  simp only [Operand.fitsAB, beq_iff_eq, h]
  omega

@[simp] theorem Operand.fitsA32_true (arg : Word) : Operand.fitsA32 arg = true := rfl

theorem Operand.width_toNat (arg : Word) : (Operand.width arg).toNat = arg.toNat % 64 := by
  simp [Operand.width, BitVec.extractLsb'_toNat]

theorem Operand.byte_setWidth (d : Byte) : Operand.byte (d.setWidth 32) = d := by
  apply BitVec.eq_of_toNat_eq
  simp [Operand.byte, BitVec.extractLsb'_toNat]
  omega

theorem Operand.byte_toNat (arg : Word) : (Operand.byte arg).toNat = arg.toNat % 256 := by
  simp [Operand.byte, BitVec.extractLsb'_toNat]

/-- A two-bit view as a number. -/
theorem pairWord_eq (hi lo : Bool) : pairWord hi lo = BitVec.ofNat 32 (2 * hi.toNat + lo.toNat) := by
  cases hi <;> cases lo <;> rfl

end Sys2Proof.Machine
end

