-- ==== Sys2Proof/Laws/State.lean ====
section
/-! SUPPORT. What each update of the state leaves in each field, so that no proof unfolds a record update. -/

namespace Sys2Proof.Machine

section updates
variable (s : State) (r : Regs) (a : Response) (p : Port)

@[simp] theorem State.setRegs_regs : (s.setRegs r).regs = r := rfl
@[simp] theorem State.setRegs_port : (s.setRegs r).port = s.port := rfl
@[simp] theorem State.setRegs_inbox : (s.setRegs r).inbox = s.inbox := rfl
@[simp] theorem State.present_regs : (s.present a).regs = s.regs := rfl
@[simp] theorem State.present_port : (s.present a).port = { s.port with rsp := some a } := rfl
@[simp] theorem State.present_inbox : (s.present a).inbox = s.inbox := rfl
@[simp] theorem State.setPort_regs : (s.setPort p).regs = s.regs := rfl
@[simp] theorem State.setPort_port : (s.setPort p).port = p := rfl
@[simp] theorem State.setPort_inbox : (s.setPort p).inbox = s.inbox := rfl
@[simp] theorem State.resetting_regs : s.resetting.regs = Regs.reset := rfl
@[simp] theorem State.resetting_port : s.resetting.port = s.port.resetting := rfl
@[simp] theorem State.resetting_inbox : s.resetting.inbox = s.inbox := rfl

@[simp] theorem Port.take_rsp : p.take.rsp = none := rfl
@[simp] theorem Port.take_wait : p.take.wait = 0 := rfl
@[simp] theorem Port.take_inReset : p.take.inReset = p.inReset := rfl
@[simp] theorem Port.take_offer : p.take.offer = p.offer := rfl
@[simp] theorem Port.take_taken : p.take.taken = p.taken ++ p.rsp.toList := rfl
@[simp] theorem Port.accepting_rsp : p.accepting.rsp = none := rfl
@[simp] theorem Port.accepting_wait : p.accepting.wait = 0 := rfl
@[simp] theorem Port.accepting_inReset : p.accepting.inReset = false := rfl
@[simp] theorem Port.accepting_offer : p.accepting.offer = none := rfl
@[simp] theorem Port.accepting_taken : p.accepting.taken = p.taken ++ p.rsp.toList := rfl
@[simp] theorem Port.resetting_rsp : p.resetting.rsp = none := rfl
@[simp] theorem Port.resetting_wait : p.resetting.wait = 0 := rfl
@[simp] theorem Port.resetting_inReset : p.resetting.inReset = true := rfl
@[simp] theorem Port.resetting_offer : p.resetting.offer = none := rfl
@[simp] theorem Port.resetting_taken : p.resetting.taken = p.taken := rfl

@[simp] theorem Regs.flagsStarted_active : r.flagsStarted.active = true := rfl
@[simp] theorem Regs.flagsStarted_rvalid : r.flagsStarted.rvalid = false := rfl
@[simp] theorem Regs.flagsFinished_active : r.flagsFinished.active = false := rfl
@[simp] theorem Regs.flagsFinished_rvalid : r.flagsFinished.rvalid = true := rfl
@[simp] theorem Regs.started_eq :
    r.started = { r with acc := r.init &&& Crc.mask r.width.toNat, active := true, rvalid := false } := rfl
@[simp] theorem Regs.finished_eq :
    r.finished = { r with result := r.finalValue, active := false, rvalid := true } := rfl
@[simp] theorem Regs.absorbed_eq (d : Byte) :
    r.absorbed d = { r with acc := Crc.absorbByte r.width.toNat r.poly r.refin r.acc d } := rfl

end updates

end Sys2Proof.Machine
end

