-- ==== Sys2Proof/Laws/Exec.lean ====
section
/-! SUPPORT. Once and for all what an execution can do: it answers a next state, it changes the registers and presents
one response, and both depend on the registers alone. -/

namespace Sys2Proof.Machine

/-- The state after an execution that leaves the registers `r` and presents `a`. -/
def State.answered (s : State) (r : Regs) (a : Response) : State := ⟨r, { s.port with rsp := some a }, s.inbox⟩

@[simp] theorem State.answered_regs (s : State) (r : Regs) (a : Response) : (s.answered r a).regs = r := rfl
@[simp] theorem State.answered_port (s : State) (r : Regs) (a : Response) :
    (s.answered r a).port = { s.port with rsp := some a } := rfl
@[simp] theorem State.answered_inbox (s : State) (r : Regs) (a : Response) : (s.answered r a).inbox = s.inbox := rfl

theorem fail_eq (st : Status) (s : State) : fail st s = .next (s.answered s.regs ⟨st, 0⟩) := rfl

theorem respond_eq (d : Word) (s : State) : respond d s = .next (s.answered s.regs ⟨.ok, d⟩) := rfl

theorem respond_setRegs_eq (d : Word) (r : Regs) (s : State) :
    respond d (s.setRegs r) = .next (s.answered r ⟨.ok, d⟩) := rfl

/-- The three ways a `SET` ends (40_config.md R56). -/
theorem setParam_cases (n : RegName) (fits : Bool) (arg : Word) (s : State) :
    (fits = false ∧ setParam n fits arg s = .next (s.answered s.regs ⟨.errArg, 0⟩)) ∨
    (fits = true ∧ s.regs.active = true ∧ setParam n fits arg s = .next (s.answered s.regs ⟨.errBusy, 0⟩)) ∨
    (fits = true ∧ s.regs.active = false ∧
      setParam n fits arg s = .next (s.answered (s.regs.write arg n) ⟨.ok, 0⟩)) := by
  cases fits <;> cases h : s.regs.active <;> simp [setParam, h, fail_eq, respond_setRegs_eq]

/-- The two ways a `GET` ends (40_config.md R62). -/
theorem getReg_cases (n : RegName) (arg : Word) (s : State) :
    (arg ≠ 0 ∧ getReg n arg s = .next (s.answered s.regs ⟨.errArg, 0⟩)) ∨
    (arg = 0 ∧ getReg n arg s = .next (s.answered s.regs ⟨.ok, s.regs.read n⟩)) := by
  by_cases h : arg = 0
  · exact .inr ⟨h, by rw [h]; rfl⟩
  · exact .inl ⟨h, by rw [getReg, if_pos ((Operand.fitsA0_false_iff arg).mpr h), fail_eq]⟩

/-- The form of every execution: for given registers there are registers and a response, and in every state with those
registers the command leaves them. -/
theorem exec_shape (i : Instr) (r : Regs) :
    ∃ r' a, ∀ s : State, s.regs = r → exec i s = .next (s.answered r' a) := by
  have hset : ∀ (n : RegName) (b : Bool) (arg : Word),
      ∃ r' a, ∀ s : State, s.regs = r → setParam n b arg s = .next (s.answered r' a) := by
    intro n b arg
    cases b
    · exact ⟨r, ⟨.errArg, 0⟩, fun s hs => by simp [setParam, fail_eq, hs]⟩
    · cases h : r.active
      · exact ⟨r.write arg n, ⟨.ok, 0⟩, fun s hs => by simp [setParam, respond_setRegs_eq, hs, h]⟩
      · exact ⟨r, ⟨.errBusy, 0⟩, fun s hs => by simp [setParam, fail_eq, hs, h]⟩
  have hget : ∀ (n : RegName) (arg : Word),
      ∃ r' a, ∀ s : State, s.regs = r → getReg n arg s = .next (s.answered r' a) := by
    intro n arg
    cases h : Operand.fitsA0 arg
    · exact ⟨r, ⟨.errArg, 0⟩, fun s hs => by simp [getReg, fail_eq, hs, h]⟩
    · exact ⟨r, ⟨.ok, r.read n⟩, fun s hs => by simp [getReg, respond_eq, hs, h]⟩
  cases i with
  | setw arg => exact hset .width _ arg
  | setp arg => exact hset .poly (Operand.fitsA32 arg) arg
  | seti arg => exact hset .init (Operand.fitsA32 arg) arg
  | setx arg => exact hset .xorout (Operand.fitsA32 arg) arg
  | setr arg => exact hset .refl _ arg
  | getw arg => exact hget .width arg
  | getp arg => exact hget .poly arg
  | geti arg => exact hget .init arg
  | getx arg => exact hget .xorout arg
  | getr arg => exact hget .refl arg
  | gets arg => exact hget .status arg
  | nop arg =>
    cases h : Operand.fitsA0 arg
    · exact ⟨r, ⟨.errArg, 0⟩, fun s hs => by simp [exec, execNop, fail_eq, hs, h]⟩
    · exact ⟨r, ⟨.ok, 0⟩, fun s hs => by simp [exec, execNop, respond_eq, hs, h]⟩
  | srst arg =>
    cases h : Operand.fitsA0 arg
    · exact ⟨r, ⟨.errArg, 0⟩, fun s hs => by simp [exec, execSrst, fail_eq, hs, h]⟩
    · exact ⟨Regs.reset, ⟨.ok, 0⟩, fun s hs => by simp [exec, execSrst, respond_setRegs_eq, h]⟩
  | getres arg =>
    cases h : Operand.fitsA0 arg
    · exact ⟨r, ⟨.errArg, 0⟩, fun s hs => by simp [exec, execGetres, fail_eq, hs, h]⟩
    · cases v : r.rvalid
      · exact ⟨r, ⟨.errSeq, 0⟩, fun s hs => by simp [exec, execGetres, fail_eq, hs, h, v]⟩
      · exact ⟨r, ⟨.ok, r.read .result⟩, fun s hs => by simp [exec, execGetres, respond_eq, hs, h, v]⟩
  | start arg =>
    cases h : Operand.fitsA0 arg
    · exact ⟨r, ⟨.errArg, 0⟩, fun s hs => by simp [exec, execStart, fail_eq, hs, h]⟩
    · by_cases v : r.width = 0
      · exact ⟨r, ⟨.errCfg, 0⟩, fun s hs => by simp [exec, execStart, fail_eq, hs, h, v]⟩
      · exact ⟨r.started, ⟨.ok, 0⟩, fun s hs => by
          rw [← hs] at v
          rw [exec, execStart, h, if_neg (by simp), if_neg v, hs]
          exact respond_setRegs_eq _ _ _⟩
  | pushb arg =>
    cases h : Operand.fitsAB arg
    · exact ⟨r, ⟨.errArg, 0⟩, fun s hs => by simp [exec, execPushb, fail_eq, hs, h]⟩
    · cases v : r.active
      · exact ⟨r, ⟨.errSeq, 0⟩, fun s hs => by simp [exec, execPushb, fail_eq, hs, h, v]⟩
      · exact ⟨r.absorbed (Operand.byte arg), ⟨.ok, 0⟩, fun s hs => by
          simp [exec, execPushb, respond_setRegs_eq, hs, h, v]⟩
  | finish arg =>
    cases h : Operand.fitsA0 arg
    · exact ⟨r, ⟨.errArg, 0⟩, fun s hs => by simp [exec, execFinish, fail_eq, hs, h]⟩
    · cases v : r.active
      · exact ⟨r, ⟨.errSeq, 0⟩, fun s hs => by simp [exec, execFinish, fail_eq, hs, h, v]⟩
      · exact ⟨r.finished, ⟨.ok, r.finalValue⟩, fun s hs => by
          simp [exec, execFinish, respond_setRegs_eq, hs, h, v]⟩

/-- The same of an accepted word, which may hold a reserved opcode. -/
theorem runWord_shape (w : CmdWord) (r : Regs) :
    ∃ r' a, ∀ s : State, s.regs = r → runWord w s = .next (s.answered r' a) := by
  cases h : decode w with
  | instr i =>
    obtain ⟨r', a, hi⟩ := exec_shape i r
    exact ⟨r', a, fun s hs => by simpa [runWord, h] using hi s hs⟩
  | reservedOpcode op =>
    exact ⟨r, ⟨.errOp, 0⟩, fun s hs => by simp [runWord, h, execReserved, fail_eq, hs]⟩

/-- Every way an execution can end (30_encoding.md R49, 60_exceptions.md R98): the four failures and the fifteen
successes, each with the conditions it stands under. -/
inductive Ends (i : Instr) (s : State) : Prop
  | errArg (hw : i.wf = false) (e : exec i s = .next (s.answered s.regs ⟨.errArg, 0⟩))
  | errBusy (hw : i.wf = true) (active : s.regs.active = true)
      (hi : ∃ arg, i = .setw arg ∨ i = .setp arg ∨ i = .seti arg ∨ i = .setx arg ∨ i = .setr arg)
      (e : exec i s = .next (s.answered s.regs ⟨.errBusy, 0⟩))
  | errSeq (hw : i.wf = true)
      (hi : (i = .finish 0 ∨ ∃ arg, i = .pushb arg) ∧ s.regs.active = false ∨ i = .getres 0 ∧ s.regs.rvalid = false)
      (e : exec i s = .next (s.answered s.regs ⟨.errSeq, 0⟩))
  | errCfg (hi : i = .start 0) (width : s.regs.width = 0) (e : exec i s = .next (s.answered s.regs ⟨.errCfg, 0⟩))
  | nop (hi : i = .nop 0) (e : exec i s = .next (s.answered s.regs ⟨.ok, 0⟩))
  | srst (hi : i = .srst 0) (e : exec i s = .next (s.answered Regs.reset ⟨.ok, 0⟩))
  | set (n : RegName) (arg : Word) (hw : i.wf = true) (active : s.regs.active = false)
      (hi : (n = .width ∧ i = .setw arg) ∨ (n = .poly ∧ i = .setp arg) ∨ (n = .init ∧ i = .seti arg) ∨
        (n = .xorout ∧ i = .setx arg) ∨ (n = .refl ∧ i = .setr arg))
      (e : exec i s = .next (s.answered (s.regs.write arg n) ⟨.ok, 0⟩))
  | get (n : RegName)
      (hi : (n = .width ∧ i = .getw 0) ∨ (n = .poly ∧ i = .getp 0) ∨ (n = .init ∧ i = .geti 0) ∨
        (n = .xorout ∧ i = .getx 0) ∨ (n = .refl ∧ i = .getr 0) ∨ (n = .status ∧ i = .gets 0) ∨
        (n = .result ∧ i = .getres 0 ∧ s.regs.rvalid = true))
      (e : exec i s = .next (s.answered s.regs ⟨.ok, s.regs.read n⟩))
  | start (hi : i = .start 0) (width : s.regs.width ≠ 0) (e : exec i s = .next (s.answered s.regs.started ⟨.ok, 0⟩))
  | pushb (arg : Word) (hi : i = .pushb arg) (byte : arg.toNat ≤ 255) (active : s.regs.active = true)
      (e : exec i s = .next (s.answered (s.regs.absorbed (Operand.byte arg)) ⟨.ok, 0⟩))
  | finish (hi : i = .finish 0) (active : s.regs.active = true)
      (e : exec i s = .next (s.answered s.regs.finished ⟨.ok, s.regs.finalValue⟩))

theorem wf_a0 (arg : Word) : Form.legal .a0 arg = true ↔ arg = 0 := by
  rw [← BitVec.toNat_inj]; simp [Form.legal]

theorem wf_a0_ne {arg : Word} (h : arg ≠ 0) : Form.legal .a0 arg = false := by
  rw [← Bool.not_eq_true, wf_a0]; exact h

theorem wf_aw (arg : Word) : Form.legal .aw arg = Operand.fitsAW arg := by
  rw [Bool.eq_iff_iff, Operand.fitsAW_iff]
  simp only [Form.legal, Bool.and_eq_true, decide_eq_true_iff]
  exact Iff.rfl

theorem wf_ar (arg : Word) : Form.legal .ar arg = Operand.fitsAR arg := by
  rw [Bool.eq_iff_iff, Operand.fitsAR_iff]; simp [Form.legal]

theorem wf_ab (arg : Word) : Form.legal .ab arg = Operand.fitsAB arg := by
  rw [Bool.eq_iff_iff, Operand.fitsAB_iff]; simp [Form.legal]

/-- The inversion of exec: every execution ends in one of these ways. -/
theorem exec_ends (i : Instr) (s : State) : Ends i s := by
  cases i with
  | nop arg =>
    by_cases h : arg = 0
    · subst h; exact .nop rfl rfl
    · exact .errArg (wf_a0_ne h) (by simp only [exec, execNop, (Operand.fitsA0_false_iff arg).mpr h]; rfl)
  | srst arg =>
    by_cases h : arg = 0
    · subst h; exact .srst rfl rfl
    · exact .errArg (wf_a0_ne h) (by simp only [exec, execSrst, (Operand.fitsA0_false_iff arg).mpr h]; rfl)
  | setw arg =>
    rcases setParam_cases .width (Operand.fitsAW arg) arg s with ⟨h, e⟩ | ⟨h, h2, e⟩ | ⟨h, h2, e⟩
    · exact .errArg ((wf_aw arg).trans h) e
    · exact .errBusy ((wf_aw arg).trans h) h2 ⟨arg, by simp⟩ e
    · exact .set .width arg ((wf_aw arg).trans h) h2 (by simp) e
  | setp arg =>
    rcases setParam_cases .poly (Operand.fitsA32 arg) arg s with ⟨h, e⟩ | ⟨h, h2, e⟩ | ⟨h, h2, e⟩
    · simp at h
    · exact .errBusy rfl h2 ⟨arg, by simp⟩ e
    · exact .set .poly arg rfl h2 (by simp) e
  | seti arg =>
    rcases setParam_cases .init (Operand.fitsA32 arg) arg s with ⟨h, e⟩ | ⟨h, h2, e⟩ | ⟨h, h2, e⟩
    · simp at h
    · exact .errBusy rfl h2 ⟨arg, by simp⟩ e
    · exact .set .init arg rfl h2 (by simp) e
  | setx arg =>
    rcases setParam_cases .xorout (Operand.fitsA32 arg) arg s with ⟨h, e⟩ | ⟨h, h2, e⟩ | ⟨h, h2, e⟩
    · simp at h
    · exact .errBusy rfl h2 ⟨arg, by simp⟩ e
    · exact .set .xorout arg rfl h2 (by simp) e
  | setr arg =>
    rcases setParam_cases .refl (Operand.fitsAR arg) arg s with ⟨h, e⟩ | ⟨h, h2, e⟩ | ⟨h, h2, e⟩
    · exact .errArg ((wf_ar arg).trans h) e
    · exact .errBusy ((wf_ar arg).trans h) h2 ⟨arg, by simp⟩ e
    · exact .set .refl arg ((wf_ar arg).trans h) h2 (by simp) e
  | getw arg =>
    rcases getReg_cases .width arg s with ⟨h, e⟩ | ⟨rfl, e⟩
    · exact .errArg (wf_a0_ne h) e
    · exact .get .width (by simp) e
  | getp arg =>
    rcases getReg_cases .poly arg s with ⟨h, e⟩ | ⟨rfl, e⟩
    · exact .errArg (wf_a0_ne h) e
    · exact .get .poly (by simp) e
  | geti arg =>
    rcases getReg_cases .init arg s with ⟨h, e⟩ | ⟨rfl, e⟩
    · exact .errArg (wf_a0_ne h) e
    · exact .get .init (by simp) e
  | getx arg =>
    rcases getReg_cases .xorout arg s with ⟨h, e⟩ | ⟨rfl, e⟩
    · exact .errArg (wf_a0_ne h) e
    · exact .get .xorout (by simp) e
  | getr arg =>
    rcases getReg_cases .refl arg s with ⟨h, e⟩ | ⟨rfl, e⟩
    · exact .errArg (wf_a0_ne h) e
    · exact .get .refl (by simp) e
  | gets arg =>
    rcases getReg_cases .status arg s with ⟨h, e⟩ | ⟨rfl, e⟩
    · exact .errArg (wf_a0_ne h) e
    · exact .get .status (by simp) e
  | getres arg =>
    by_cases h : arg = 0
    · subst h
      cases h2 : s.regs.rvalid
      · exact .errSeq rfl (.inr ⟨rfl, h2⟩) (by simp only [exec, execGetres, Operand.fitsA0_zero, h2]; rfl)
      · exact .get .result (by simp [h2]) (by simp only [exec, execGetres, Operand.fitsA0_zero, h2]; rfl)
    · exact .errArg (wf_a0_ne h) (by simp only [exec, execGetres, (Operand.fitsA0_false_iff arg).mpr h]; rfl)
  | start arg =>
    by_cases h : arg = 0
    · subst h
      by_cases h2 : s.regs.width = 0
      · exact .errCfg rfl h2 (by simp only [exec, execStart, Operand.fitsA0_zero, if_pos h2]; rfl)
      · exact .start rfl h2 (by simp only [exec, execStart, Operand.fitsA0_zero, if_neg h2]; rfl)
    · exact .errArg (wf_a0_ne h) (by simp only [exec, execStart, (Operand.fitsA0_false_iff arg).mpr h]; rfl)
  | pushb arg =>
    cases h : Operand.fitsAB arg
    · exact .errArg ((wf_ab arg).trans h) (by simp only [exec, execPushb, h]; rfl)
    · cases h2 : s.regs.active
      · exact .errSeq ((wf_ab arg).trans h) (.inl ⟨.inr ⟨arg, rfl⟩, h2⟩) (by simp only [exec, execPushb, h, h2]; rfl)
      · exact .pushb arg rfl ((Operand.fitsAB_iff _).mp h) h2 (by simp only [exec, execPushb, h, h2]; rfl)
  | finish arg =>
    by_cases h : arg = 0
    · subst h
      cases h2 : s.regs.active
      · exact .errSeq rfl (.inl ⟨.inl rfl, h2⟩) (by simp only [exec, execFinish, Operand.fitsA0_zero, h2]; rfl)
      · exact .finish rfl h2 (by simp only [exec, execFinish, Operand.fitsA0_zero, h2]; rfl)
    · exact .errArg (wf_a0_ne h) (by simp only [exec, execFinish, (Operand.fitsA0_false_iff arg).mpr h]; rfl)

end Sys2Proof.Machine
end

