-- ==== Sys2Proof/Laws/PerInstr.lean ====
section
/-! SUPPORT. What holds of every command as syntax, one lemma per constructor. -/

namespace Sys2Proof.Laws.Encoding

/-- The word of a command holds its opcode and its operand, and the opcode is in the opcode map (30_encoding.md R45,
R48). -/
def Statement (i : Instr) : Prop :=
  opField (encode i) = i.opcode ∧ argField (encode i) = i.arg ∧ i.opcode ∈ opcodeTable.map Row.opcode

theorem nop (arg : Word) : Statement (.nop arg) :=
  ⟨opField_encode _, argField_encode _, by simp [opcodeTable, Instr.opcode]⟩

theorem srst (arg : Word) : Statement (.srst arg) :=
  ⟨opField_encode _, argField_encode _, by simp [opcodeTable, Instr.opcode]⟩

theorem setw (arg : Word) : Statement (.setw arg) :=
  ⟨opField_encode _, argField_encode _, by simp [opcodeTable, Instr.opcode]⟩

theorem setp (arg : Word) : Statement (.setp arg) :=
  ⟨opField_encode _, argField_encode _, by simp [opcodeTable, Instr.opcode]⟩

theorem seti (arg : Word) : Statement (.seti arg) :=
  ⟨opField_encode _, argField_encode _, by simp [opcodeTable, Instr.opcode]⟩

theorem setx (arg : Word) : Statement (.setx arg) :=
  ⟨opField_encode _, argField_encode _, by simp [opcodeTable, Instr.opcode]⟩

theorem setr (arg : Word) : Statement (.setr arg) :=
  ⟨opField_encode _, argField_encode _, by simp [opcodeTable, Instr.opcode]⟩

theorem getw (arg : Word) : Statement (.getw arg) :=
  ⟨opField_encode _, argField_encode _, by simp [opcodeTable, Instr.opcode]⟩

theorem getp (arg : Word) : Statement (.getp arg) :=
  ⟨opField_encode _, argField_encode _, by simp [opcodeTable, Instr.opcode]⟩

theorem geti (arg : Word) : Statement (.geti arg) :=
  ⟨opField_encode _, argField_encode _, by simp [opcodeTable, Instr.opcode]⟩

theorem getx (arg : Word) : Statement (.getx arg) :=
  ⟨opField_encode _, argField_encode _, by simp [opcodeTable, Instr.opcode]⟩

theorem getr (arg : Word) : Statement (.getr arg) :=
  ⟨opField_encode _, argField_encode _, by simp [opcodeTable, Instr.opcode]⟩

theorem gets (arg : Word) : Statement (.gets arg) :=
  ⟨opField_encode _, argField_encode _, by simp [opcodeTable, Instr.opcode]⟩

theorem getres (arg : Word) : Statement (.getres arg) :=
  ⟨opField_encode _, argField_encode _, by simp [opcodeTable, Instr.opcode]⟩

theorem start (arg : Word) : Statement (.start arg) :=
  ⟨opField_encode _, argField_encode _, by simp [opcodeTable, Instr.opcode]⟩

theorem pushb (arg : Word) : Statement (.pushb arg) :=
  ⟨opField_encode _, argField_encode _, by simp [opcodeTable, Instr.opcode]⟩

theorem finish (arg : Word) : Statement (.finish arg) :=
  ⟨opField_encode _, argField_encode _, by simp [opcodeTable, Instr.opcode]⟩

end Sys2Proof.Laws.Encoding
end

