-- ==== Sys2Proof/Laws/Run.lean ====
section
/-! SUPPORT. Runs of the machine, one step at a time, and what each host event does. -/

namespace Sys2Proof.Machine

@[simp] theorem run_zero (s : State) : Host.Core.run Sys2Proof.core 0 s = .next s := rfl

/-- The first step of a run. -/
theorem run_succ {s t : State} (k : Nat) (h : step s = .next t) :
    Host.Core.run Sys2Proof.core (k + 1) s = Host.Core.run Sys2Proof.core k t := by
  have h' : Sys2Proof.core.step s = .next t := h
  simp only [Host.Core.run, h']

@[simp] theorem step_nil (r : Regs) (p : Port) : step ⟨r, p, []⟩ = .next ⟨r, p, []⟩ := rfl

@[simp] theorem step_take (r : Regs) (p : Port) (es : List HostEvent) :
    step ⟨r, p, .take :: es⟩ = .next ⟨r, p.take, es⟩ := rfl

@[simp] theorem step_reset (r : Regs) (p : Port) (es : List HostEvent) :
    step ⟨r, p, .reset :: es⟩ = .next ⟨Regs.reset, { p.resetting with inReset := false }, es⟩ := rfl

/-- A command handed over by a host that holds no other word. -/
theorem step_command (r : Regs) (p : Port) (w : CmdWord) (es : List HostEvent) (h : p.heldBy (some w) = true) :
    step ⟨r, p, .command w :: es⟩ = runWord w ⟨r, p.accepting, es⟩ := by
  simp only [step, advance, hostEvent, commandEvent, h]
  rfl

/-- An edge with `rst = 1`. -/
theorem step_edge_reset (r : Regs) (p : Port) (pins : Pins) (es : List HostEvent) (h : pins.rst = true) :
    step ⟨r, p, .edge pins :: es⟩ = .next ⟨Regs.reset, p.resetting, es⟩ := by
  simp only [step, advance, hostEvent, clockEdge, h]
  rfl

/-- An edge at which the engine is not ready for a command. -/
theorem step_edge_busy (r : Regs) (p : Port) (pins : Pins) (es : List HostEvent) (h : pins.rst = false)
    (hh : p.heldBy pins.offered = true) (hr : p.cmdReady = false) :
    step ⟨r, p, .edge pins :: es⟩ = .next ⟨r, p.busyEdge pins, es⟩ := by
  simp only [step, advance, hostEvent, clockEdge, h, hh, hr]
  rfl

/-- An edge at which a command is accepted. -/
theorem step_edge_accept (r : Regs) (p : Port) (pins : Pins) (es : List HostEvent) (h : pins.rst = false)
    (hv : pins.cmdValid = true) (hh : p.heldBy (some pins.cmd) = true) (hr : p.cmdReady = true) :
    step ⟨r, p, .edge pins :: es⟩ =
      runWord pins.cmd ⟨r, { p with offer := none, wait := Config.lat (opField pins.cmd) }, es⟩ := by
  have ho : pins.offered = some pins.cmd := by simp [Pins.offered, hv]
  simp only [step, advance, hostEvent, clockEdge, h, ho, hh, hr, acceptAtEdge]
  rfl

/-- An edge at which the engine is ready and the host offers nothing. -/
theorem step_edge_idle (r : Regs) (p : Port) (pins : Pins) (es : List HostEvent) (h : pins.rst = false)
    (hv : pins.cmdValid = false) (hh : p.heldBy none = true) (hr : p.cmdReady = true) :
    step ⟨r, p, .edge pins :: es⟩ = .next ⟨r, p, es⟩ := by
  have ho : pins.offered = none := by simp [Pins.offered, hv]
  simp only [step, advance, hostEvent, clockEdge, h, ho, hh, hr]
  rfl

/-- An edge at which the host drops or changes its offer. -/
theorem step_edge_broken (r : Regs) (p : Port) (pins : Pins) (es : List HostEvent) (h : pins.rst = false)
    (hh : p.heldBy pins.offered = false) : step ⟨r, p, .edge pins :: es⟩ = .refused .hostBrokeHandshake := by
  simp only [step, advance, hostEvent, clockEdge, h, hh]
  rfl

/-- A command handed over while another word is on offer. -/
theorem step_command_broken (r : Regs) (p : Port) (w : CmdWord) (es : List HostEvent)
    (h : p.heldBy (some w) = false) : step ⟨r, p, .command w :: es⟩ = .refused .hostBrokeHandshake := by
  simp only [step, advance, hostEvent, commandEvent, h]
  rfl

theorem Port.cmdReady_iff (p : Port) : p.cmdReady = true ↔ p.rsp = none ∧ p.inReset = false := by
  simp [Port.cmdReady]

theorem Port.rspValid_iff (p : Port) : p.rspValid = true ↔ p.rsp ≠ none ∧ p.wait = 0 := by
  simp [Port.rspValid, Option.isSome_iff_ne_none]

/-- Every way a step can end in a next state, each with the conditions it stands under. -/
inductive StepEnds (s t : State) : Prop
  | idle (hi : s.inbox = []) (e : t = s)
  | take (rest : List HostEvent) (hi : s.inbox = .take :: rest) (e : t = ⟨s.regs, s.port.take, rest⟩)
  | reset (rest : List HostEvent) (hi : s.inbox = .reset :: rest)
      (e : t = ⟨Regs.reset, { s.port.resetting with inReset := false }, rest⟩)
  | command (w : CmdWord) (rest : List HostEvent) (hi : s.inbox = .command w :: rest)
      (held : s.port.heldBy (some w) = true) (e : runWord w ⟨s.regs, s.port.accepting, rest⟩ = .next t)
  | edgeReset (pins : Pins) (rest : List HostEvent) (hi : s.inbox = .edge pins :: rest) (rst : pins.rst = true)
      (e : t = ⟨Regs.reset, s.port.resetting, rest⟩)
  | edgeBusy (pins : Pins) (rest : List HostEvent) (hi : s.inbox = .edge pins :: rest) (rst : pins.rst = false)
      (held : s.port.heldBy pins.offered = true) (ready : s.port.cmdReady = false)
      (e : t = ⟨s.regs, s.port.busyEdge pins, rest⟩)
  | edgeIdle (pins : Pins) (rest : List HostEvent) (hi : s.inbox = .edge pins :: rest) (rst : pins.rst = false)
      (held : s.port.heldBy none = true) (ready : s.port.cmdReady = true) (valid : pins.cmdValid = false)
      (e : t = ⟨s.regs, s.port, rest⟩)
  | edgeAccept (pins : Pins) (rest : List HostEvent) (hi : s.inbox = .edge pins :: rest) (rst : pins.rst = false)
      (held : s.port.heldBy (some pins.cmd) = true) (ready : s.port.cmdReady = true) (valid : pins.cmdValid = true)
      (e : runWord pins.cmd ⟨s.regs, { s.port with offer := none, wait := Config.lat (opField pins.cmd) }, rest⟩ =
        .next t)

/-- The inversion of step: every step that answers a next state ends in one of these ways. -/
theorem step_ends {s t : State} (h : step s = .next t) : StepEnds s t := by
  obtain ⟨r, p, es⟩ := s
  cases es with
  | nil => rw [step_nil] at h; injection h with h; exact .idle rfl h.symm
  | cons e rest =>
    cases e with
    | take => rw [step_take] at h; injection h with h; exact .take rest rfl h.symm
    | reset => rw [step_reset] at h; injection h with h; exact .reset rest rfl h.symm
    | command w =>
      cases hh : p.heldBy (some w)
      · rw [step_command_broken r p w rest hh] at h; cases h
      · exact .command w rest rfl hh ((step_command r p w rest hh).symm.trans h)
    | edge pins =>
      cases hrst : pins.rst
      · cases hh : p.heldBy pins.offered
        · rw [step_edge_broken r p pins rest hrst hh] at h; cases h
        · cases hr : p.cmdReady
          · rw [step_edge_busy r p pins rest hrst hh hr] at h
            injection h with h
            exact .edgeBusy pins rest rfl hrst hh hr h.symm
          · cases hv : pins.cmdValid
            · have hh' : p.heldBy none = true := by simpa [Pins.offered, hv] using hh
              rw [step_edge_idle r p pins rest hrst hv hh' hr] at h
              injection h with h
              exact .edgeIdle pins rest rfl hrst hh' hr hv h.symm
            · have hh' : p.heldBy (some pins.cmd) = true := by simpa [Pins.offered, hv] using hh
              exact .edgeAccept pins rest rfl hrst hh' hr hv ((step_edge_accept r p pins rest hrst hv hh' hr).symm.trans h)
      · rw [step_edge_reset r p pins rest hrst] at h
        injection h with h
        exact .edgeReset pins rest rfl hrst h.symm

/-- Every step: it keeps the registers, resets them, or executes a word, and no other way changes the registers. -/
theorem step_regs {s t : State} (h : step s = .next t) :
    t.regs = s.regs ∨ t.regs = Regs.reset ∨
      ∃ (w : CmdWord) (s' : State), s'.regs = s.regs ∧ runWord w s' = .next t := by
  cases step_ends h with
  | idle _ e => exact .inl (by rw [e])
  | take _ _ e => exact .inl (by rw [e])
  | reset _ _ e => exact .inr (.inl (by rw [e]))
  | command w rest _ _ e => exact .inr (.inr ⟨w, ⟨s.regs, s.port.accepting, rest⟩, rfl, e⟩)
  | edgeReset _ _ _ _ e => exact .inr (.inl (by rw [e]))
  | edgeBusy _ _ _ _ _ _ e => exact .inl (by rw [e])
  | edgeIdle _ _ _ _ _ _ _ e => exact .inl (by rw [e])
  | edgeAccept pins rest _ _ _ _ _ e =>
    exact .inr (.inr ⟨pins.cmd, ⟨s.regs, { s.port with offer := none, wait := Config.lat (opField pins.cmd) }, rest⟩,
      rfl, e⟩)

end Sys2Proof.Machine
end

