-- ==== Sys2Proof/Tests/Slice0.lean ====
section
/-! SUPPORT. Tests, each with the place of spec/ its expected value is from, and for every statement with hypotheses a
concrete case that meets them. -/

namespace Sys2Proof.Tests

open Sys2Proof.Machine Sys2Proof.Claims

/-! ## Helpers -/

/-- A state with these registers, ready for a command. -/
def at_ (r : Regs) : State := ⟨r, Port.reset, []⟩

/-- The registers and the response word after one step that hands `w` over. -/
def send (w : CmdWord) (r : Regs) : Option (Regs × Option RspWord) :=
  match step ⟨r, Port.reset, [.command w]⟩ with
  | .next t => some (t.regs, t.port.rspPins)
  | _ => none

/-- The state after one step, or `s` where there is none. -/
def after (s : State) : State :=
  match step s with
  | .next t => t
  | _ => s

/-- IDLE with the CCITT parameters of 95_test_vectors.md V1. -/
def idle : Regs := ⟨16, 0x1021, 0xFFFF, 0, false, false, 0, 0, false, false⟩

/-- COMPUTING, after the first byte of "123456789" (95_test_vectors.md V2). -/
def computing : Regs := { idle with acc := 0xC782, active := true }

/-- IDLE after the FINISH of program P1. -/
def finished : Regs := { idle with acc := 0x29B1, result := 0x29B1, rvalid := true }

/-- A host that waits for the response of a command, presented. -/
def answered : Port := ⟨some ⟨.ok, 0⟩, 0, false, none, []⟩

/-- The bytes of "123456789". -/
def check : List Byte := [0x31, 0x32, 0x33, 0x34, 0x35, 0x36, 0x37, 0x38, 0x39]

/-! ## Well-formedness: each check refuses an ill-formed term -/

theorem test_wf_a0 : (Instr.nop 0).wf = true ∧ (Instr.nop 1).wf = false ∧ (Instr.srst 1).wf = false ∧
    (Instr.getw 1).wf = false ∧ (Instr.getp 1).wf = false ∧ (Instr.geti 1).wf = false ∧ (Instr.getx 1).wf = false ∧
    (Instr.getr 1).wf = false ∧ (Instr.gets 1).wf = false ∧ (Instr.getres 1).wf = false ∧ (Instr.start 1).wf = false ∧
    (Instr.finish 0x80000000).wf = false := by decide

theorem test_wf_aw : (Instr.setw 1).wf = true ∧ (Instr.setw 32).wf = true ∧ (Instr.setw 0).wf = false ∧
    (Instr.setw 33).wf = false ∧ (Instr.setw 0x48).wf = false ∧ (Instr.setw 0x80000010).wf = false := by decide

theorem test_wf_a32 : (Instr.setp 0xFFFFFFFF).wf = true ∧ (Instr.seti 0).wf = true ∧ (Instr.setx 0x107).wf = true := by
  decide

theorem test_wf_ar : (Instr.setr 3).wf = true ∧ (Instr.setr 4).wf = false := by decide

theorem test_wf_ab : (Instr.pushb 0xFF).wf = true ∧ (Instr.pushb 0x100).wf = false := by decide

/-- The assembler refuses an ill-formed command (30_encoding.md R53). -/
theorem test_assemble_refuses : assemble (.setw 33) = none ∧ assemble (.pushb 0x100) = none ∧
    assemble (.setw 16) = some 0x1000000010 := by decide

/-! ## Decoding: words written out bit by bit, opcode then operand (30_encoding.md R45, R48) -/

theorem test_decode_system :
    decode 0b00000000_00000000000000000000000000000000 = .instr (.nop 0) ∧
    decode 0b00000001_00000000000000000000000000000000 = .instr (.srst 0) ∧
    decode 0b00100101_00000000000000000000000000000000 = .instr (.gets 0) := by decide

theorem test_decode_set :
    decode 0b00010000_00000000000000000000000000010000 = .instr (.setw 16) ∧
    decode 0b00010001_00000000000000000001000000100001 = .instr (.setp 0x1021) ∧
    decode 0b00010010_00000000000000001111111111111111 = .instr (.seti 0xFFFF) ∧
    decode 0b00010011_10000000000000000000000000000000 = .instr (.setx 0x80000000) ∧
    decode 0b00010100_00000000000000000000000000000010 = .instr (.setr 2) := by decide

theorem test_decode_get :
    decode 0b00100000_00000000000000000000000000000000 = .instr (.getw 0) ∧
    decode 0b00100001_00000000000000000000000000000000 = .instr (.getp 0) ∧
    decode 0b00100010_00000000000000000000000000000000 = .instr (.geti 0) ∧
    decode 0b00100011_00000000000000000000000000000000 = .instr (.getx 0) ∧
    decode 0b00100100_00000000000000000000000000000000 = .instr (.getr 0) := by decide

theorem test_decode_compute :
    decode 0b00100110_00000000000000000000000000000000 = .instr (.getres 0) ∧
    decode 0b00110000_00000000000000000000000000000000 = .instr (.start 0) ∧
    decode 0b00110001_00000000000000000000000000110001 = .instr (.pushb 0x31) ∧
    decode 0b00110010_00000000000000000000000000000000 = .instr (.finish 0) := by decide

/-- 30_encoding.md R50: the edges of the reserved ranges. -/
theorem test_decode_reserved :
    decode 0x0200000000 = .reservedOpcode 0x02 ∧ decode 0x0F00000000 = .reservedOpcode 0x0F ∧
    decode 0x15FFFFFFFF = .reservedOpcode 0x15 ∧ decode 0x1F00000000 = .reservedOpcode 0x1F ∧
    decode 0x2700000000 = .reservedOpcode 0x27 ∧ decode 0x2F00000000 = .reservedOpcode 0x2F ∧
    decode 0x3300000000 = .reservedOpcode 0x33 ∧ decode 0xFFFFFFFFFF = .reservedOpcode 0xFF := by decide

/-- No opcode stands twice in the opcode map, and it has 17 rows (30_encoding.md R48). -/
theorem test_opcodes_distinct : (opcodeTable.map Row.opcode).Pairwise (· ≠ ·) ∧ opcodeTable.length = 17 := by decide

/-- An operand bit never selects another command; a word longer than a command is none. -/
theorem test_decodeTableWord : decodeTableWord 40 0x1000000010 = some (.setw 16) ∧
    decodeTableWord 40 0x3300000000 = none ∧ decodeTableWord 48 0x010000000000 = none := by decide

/-! ## Commands: 95_test_vectors.md sections 4 and 5, one step each -/

/-- V70, V71. -/
theorem test_nop : send 0x0000000000 computing = some (computing, some 0x000000000) ∧
    send 0x0000000001 computing = some (computing, some 0x200000000) := by decide

/-- V72, V73. -/
theorem test_srst : send 0x0100000000 { computing with result := 0x1234 } = some (Regs.reset, some 0x000000000) ∧
    send 0x0100000001 idle = some (idle, some 0x200000000) := by decide

/-- V40, V41, V42, V43. -/
theorem test_setw : send 0x1000000001 Regs.reset = some ({ Regs.reset with width := 1 }, some 0x000000000) ∧
    send 0x1000000020 Regs.reset = some ({ Regs.reset with width := 32 }, some 0x000000000) ∧
    send 0x1000000000 Regs.reset = some (Regs.reset, some 0x200000000) ∧
    send 0x1000000021 idle = some (idle, some 0x200000000) := by decide

/-- V45, V46, V56, V58: reserved bits are checked, `ERR_BUSY`, and `ERR_ARG` outranks it. -/
theorem test_setw_refused : send 0x1000000048 idle = some (idle, some 0x200000000) ∧
    send 0x1080000010 idle = some (idle, some 0x200000000) ∧
    send 0x1000000008 computing = some (computing, some 0x300000000) ∧
    send 0x1000000028 computing = some (computing, some 0x200000000) := by decide

/-- V47, V57. -/
theorem test_setp : send 0x11FFFFFFFF Regs.reset = some ({ Regs.reset with poly := 0xFFFFFFFF }, some 0x000000000) ∧
    send 0x1100008005 computing = some (computing, some 0x300000000) := by decide

/-- V49, V57. -/
theorem test_seti : send 0x120000FFFF Regs.reset = some ({ Regs.reset with init := 0xFFFF }, some 0x000000000) ∧
    send 0x1200000000 computing = some (computing, some 0x300000000) := by decide

/-- V50, V57. -/
theorem test_setx : send 0x13FFFFFFFF Regs.reset = some ({ Regs.reset with xorout := 0xFFFFFFFF }, some 0x000000000) ∧
    send 0x1300000000 computing = some (computing, some 0x300000000) := by decide

/-- V51, V52. -/
theorem test_setr : send 0x1400000002 Regs.reset = some ({ Regs.reset with refout := true }, some 0x000000000) ∧
    send 0x1400000004 { idle with refin := true, refout := true } =
      some ({ idle with refin := true, refout := true }, some 0x200000000) := by decide

/-- V54, V55. -/
theorem test_getw : send 0x2000000000 idle = some (idle, some 0x000000010) ∧
    send 0x2000000001 idle = some (idle, some 0x200000000) := by decide

/-- V48: the polynomial reads back unmasked. -/
theorem test_getp : send 0x2100000000 { idle with width := 8, poly := 0x107 } =
    some ({ idle with width := 8, poly := 0x107 }, some 0x000000107) := by decide

/-- V59: the parameter, not `ACC`. -/
theorem test_geti : send 0x2200000000 computing = some (computing, some 0x00000FFFF) := by decide

/-- V50. -/
theorem test_getx : send 0x2300000000 { idle with xorout := 0xFFFFFFFF } =
    some ({ idle with xorout := 0xFFFFFFFF }, some 0x0FFFFFFFF) := by decide

/-- V51. -/
theorem test_getr : send 0x2400000000 { idle with refout := true } =
    some ({ idle with refout := true }, some 0x000000002) := by decide

/-- V74, V75, V76. -/
theorem test_gets : send 0x2500000000 Regs.reset = some (Regs.reset, some 0x000000000) ∧
    send 0x2500000000 computing = some (computing, some 0x000000001) ∧
    send 0x2500000000 finished = some (finished, some 0x000000002) := by decide

/-- V60, V87. -/
theorem test_getres : send 0x2600000000 { finished with width := 8 } =
      some ({ finished with width := 8 }, some 0x0000029B1) ∧
    send 0x2600000000 Regs.reset = some (Regs.reset, some 0x400000000) := by decide

/-- V82, V83, V89, and the example of 41_compute.md R79. -/
theorem test_start : send 0x3000000000 Regs.reset = some (Regs.reset, some 0x500000000) ∧
    send 0x3000000001 Regs.reset = some (Regs.reset, some 0x200000000) ∧
    send 0x3000000000 { computing with acc := 0x3DBA } = some ({ computing with acc := 0xFFFF }, some 0x000000000) ∧
    send 0x3000000000 { finished with width := 8, init := 0xFFFFFF00 } =
      some ({ finished with width := 8, init := 0xFFFFFF00, acc := 0, active := true, rvalid := false },
        some 0x000000000) := by decide

/-- The example of 41_compute.md R80, V2 (the second byte), V84, V85. -/
theorem test_pushb : send 0x3100000031 { computing with acc := 0xFFFF } = some (computing, some 0x000000000) ∧
    send 0x3100000032 computing = some ({ computing with acc := 0x3DBA }, some 0x000000000) ∧
    send 0x3100000031 idle = some (idle, some 0x400000000) ∧
    send 0x3100000100 idle = some (idle, some 0x200000000) := by decide

/-- The example of 41_compute.md R81 with both final XOR values, V86. -/
theorem test_finish : send 0x3200000000 { computing with acc := 0x29B1 } = some (finished, some 0x0000029B1) ∧
    send 0x3200000000 { computing with acc := 0x29B1, xorout := 0xFFFF } =
      some ({ finished with xorout := 0xFFFF, result := 0xD64E }, some 0x00000D64E) ∧
    send 0x3200000000 idle = some (idle, some 0x400000000) := by decide

/-- V77 to V81. -/
theorem test_reserved : send 0x0200000000 computing = some (computing, some 0x100000000) ∧
    send 0x15FFFFFFFF computing = some (computing, some 0x100000000) ∧
    send 0x3300000000 idle = some (idle, some 0x100000000) ∧
    send 0xFFFFFFFFFF Regs.reset = some (Regs.reset, some 0x100000000) := by decide

/-! ## The computation -/

/-- The eight steps of the example of 41_compute.md R80. -/
theorem test_crc_step : Crc.crcStep 16 0x1021 0xFFFF false = 0xEFDF ∧ Crc.crcStep 16 0x1021 0xEFDF false = 0xCF9F ∧
    Crc.crcStep 16 0x1021 0xCF9F true = 0x9F3E ∧ Crc.crcStep 16 0x1021 0xE3C1 true = 0xC782 := by decide

/-- 95_test_vectors.md V1, V8. -/
theorem test_checksum_v1_v8 : Crc.checksum ⟨16, 0x1021, 0xFFFF, 0, false, false⟩ check = 0x29B1 ∧
    Crc.checksum ⟨8, 0x07, 0, 0, false, false⟩ check = 0xF4 := by decide +kernel

/-- 95_test_vectors.md V11. -/
theorem test_checksum_v11 :
    Crc.checksum ⟨32, 0x04C11DB7, 0xFFFFFFFF, 0xFFFFFFFF, true, true⟩ check = 0xCBF43926 := by decide +kernel

/-- 95_test_vectors.md V14, V15, V18. -/
theorem test_checksum_odd_widths : Crc.checksum ⟨5, 0x05, 0x1F, 0x1F, true, true⟩ check = 0x19 ∧
    Crc.checksum ⟨12, 0x80F, 0, 0, false, true⟩ check = 0xDAF ∧
    Crc.checksum ⟨3, 0x3, 0, 0x7, false, false⟩ check = 0x4 := by decide +kernel

/-- 95_test_vectors.md V22c, V23a, V24a, V24b, V25b. -/
theorem test_checksum_corners : Crc.checksum ⟨1, 1, 0, 0, false, false⟩ [0x07, 0x00] = 1 ∧
    Crc.checksum ⟨8, 0xABCDEF07, 0xFFFFFF00, 0x12345600, false, false⟩ check = 0xF4 ∧
    Crc.checksum ⟨8, 0x07, 0, 0x01, false, true⟩ [] = 0x80 ∧
    Crc.checksum ⟨8, 0x07, 0, 0x01, false, true⟩ [0x31] = 0x69 ∧
    Crc.checksum ⟨32, 0x04C11DB7, 0x80000000, 0, false, false⟩ [0x80] = 0 := by decide +kernel

/-- 95_test_vectors.md V2 (windows 1 and 2), V26h. -/
theorem test_windowed : Crc.absorbWindow 16 0x1021 false 0xFFFF [0x31, 0x32] = 0x3DBA ∧
    Crc.absorbWindow 16 0x1021 false 0x3DBA [0x33, 0x34] = 0x5349 ∧
    Crc.checksumWindowed ⟨24, 0x864CFB, 0xB704CE, 0, false, false⟩ [0x31, 0x32, 0x33] = 0x09DF67 := by decide +kernel

/-! ## The listing syntax -/

/-- The examples of 30_encoding.md R53. -/
theorem test_listing : Listing.assembleLine "SETR 1, 1 ; both".toList = some [0x1400000003] ∧
    Listing.assembleLine "SETW 0b10000".toList = some [0x1000000010] ∧
    Listing.assembleLine "PUSHB 0x100".toList = none := by decide

/-- 30_encoding.md R54 on a CONFIG and a CHECKSUM line. -/
theorem test_pseudo : Listing.assembleLine "CONFIG 16, 0x1021, 0xFFFF, 0, 0, 1".toList =
      some [0x1000000010, 0x1100001021, 0x120000FFFF, 0x1300000000, 0x1400000002] ∧
    Listing.assembleLine "CHECKSUM \"1;\"".toList = some [0x3000000000, 0x3100000031, 0x310000003B, 0x3200000000] ∧
    Listing.assembleLine "PUSHH 0xA0 11".toList = some [0x31000000A0, 0x310000000B] := by decide

/-! ## Steps and channels -/

/-- An idle engine keeps its state (60_exceptions.md R105). -/
theorem test_idle : after State.reset = State.reset := by decide

/-- The word of withFetchWord is the next command, right after reset. -/
theorem test_withFetchWord : after (State.reset.withFetchWord 40 0x1000000010) =
    ⟨{ Regs.reset with width := 16 }, { Port.reset with rsp := some ⟨.ok, 0⟩ }, []⟩ := by decide

/-- An edge with `rst = 1` in the middle of a command (70_reset_and_hazards.md R107, R108). -/
theorem test_reset_edge : after ⟨computing, answered, [.edge ⟨true, true, 0x2500000000, true⟩]⟩ =
    ⟨Regs.reset, ⟨none, 0, true, none, []⟩, []⟩ := by decide

/-- A response that the host is ready for is taken, and no command at that edge (30_encoding.md R44). -/
theorem test_take_edge : after ⟨computing, answered, [.edge ⟨false, true, 0x2500000000, true⟩]⟩ =
    ⟨computing, ⟨none, 0, false, some 0x2500000000, [⟨.ok, 0⟩]⟩, []⟩ := by decide

/-- A host that drops its offer is refused (93_implementation_defined.md U12). -/
theorem test_broken_handshake : step ⟨idle, { answered with offer := some 0x2500000000 }, [.edge idlePins]⟩ =
    .refused .hostBrokeHandshake := rfl

/-! ## Witnesses: concrete cases that meet the hypotheses of each statement -/

/-- The statements about an edge with `rst = 1`, and one without after it. -/
theorem witness_reset : (⟨true, false, 0, false⟩ : Pins).rst = true ∧ idlePins.rst = false := by decide

/-- NopDoesNothing, SrstResetsEveryField, ParameterGets…, and the other `A0` commands: an operand that is not 0. -/
theorem witness_a0 : (1 : Word) ≠ 0 ∧ (0x80000000 : Word) ≠ 0 := by decide

/-- GetsReturnsTheFlags, PhasesAndTheirTransitions: registers that meet the invariant, computing. -/
theorem witness_inv : computing.Inv where
  width_le := by decide
  active_width := by decide
  active_acc := by
    intro _ i hi
    by_cases h : i < 32
    · have : ∀ j : Fin 32, 16 ≤ j.val → (0xC782 : Word).getLsbD j.val = false := by decide
      exact this ⟨i, h⟩ hi
    · exact BitVec.getLsbD_of_ge _ i (by omega)
  not_both := by decide
  rvalid_width := by decide

/-- SetwSetsTheWidth: each clause at its boundaries. -/
theorem witness_setw : (1 ≤ (1 : Word).toNat ∧ (32 : Word).toNat ≤ 32 ∧ idle.active = false) ∧
    ¬(1 ≤ (0 : Word).toNat ∧ (0 : Word).toNat ≤ 32) ∧ ¬(1 ≤ (33 : Word).toNat ∧ (33 : Word).toNat ≤ 32) ∧
    computing.active = true := by decide

/-- SetrSetsBothReflectionFlags: each clause at its boundaries. -/
theorem witness_setr : 3 < (4 : Word).toNat ∧ (3 : Word).toNat ≤ 3 ∧ computing.active = true ∧
    idle.active = false := by decide

/-- GetAfterSetReturnsTheOperand: for each `SET` a state after its success. -/
theorem witness_get_after_set :
    (∃ t, exec (.setw 32) (at_ idle) = .next t ∧ t.port.rsp = some ⟨.ok, 0⟩) ∧
    (∃ t, exec (.setp 0xFFFFFFFF) (at_ idle) = .next t ∧ t.port.rsp = some ⟨.ok, 0⟩) ∧
    (∃ t, exec (.seti 1) (at_ idle) = .next t ∧ t.port.rsp = some ⟨.ok, 0⟩) ∧
    (∃ t, exec (.setx 1) (at_ idle) = .next t ∧ t.port.rsp = some ⟨.ok, 0⟩) ∧
    (∃ t, exec (.setr 3) (at_ idle) = .next t ∧ t.port.rsp = some ⟨.ok, 0⟩) :=
  ⟨⟨_, rfl, rfl⟩, ⟨_, rfl, rfl⟩, ⟨_, rfl, rfl⟩, ⟨_, rfl, rfl⟩, ⟨_, rfl, rfl⟩⟩

/-- StartBeginsAComputation: each clause. -/
theorem witness_start : idle.width ≠ 0 ∧ Regs.reset.width = 0 ∧
    ({ idle with width := 8, init := 0xFFFFFF00 } : Regs).width = 8 := by decide

/-- PushbAbsorbsOneByte: each clause at its boundaries. -/
theorem witness_pushb : computing.active = true ∧ 255 < (256 : Word).toNat ∧ (255 : Word).toNat ≤ 255 ∧
    idle.active = false ∧ computing.width = 16 ∧ computing.poly = 0x1021 ∧ computing.refin = false ∧
    ({ computing with acc := 0xFFFF } : Regs).acc = 0xFFFF := by decide

/-- FinishReturnsTheChecksum: each clause. -/
theorem witness_finish : computing.active = true ∧ idle.active = false ∧ computing.refout = false ∧
    ({ computing with acc := 0x29B1 } : Regs).acc = 0x29B1 ∧ computing.xorout = 0 ∧
    ({ computing with xorout := 0xFFFF } : Regs).xorout = 0xFFFF := by decide

/-- GetresReadsAValidResult: each clause. -/
theorem witness_getres : finished.rvalid = true ∧ idle.rvalid = false := by decide

/-- ReservedOpcodesFailAndNoOthers, FailuresAreReportedInPriorityOrder, OneResponsePerCommandInOrder: no word on offer;
each clause has a word and a phase. -/
theorem witness_words : Port.reset.offer = none ∧
    decode 0x3300000000 = .reservedOpcode 0x33 ∧ reserved (opField 0x0200000000) ∧ reserved (opField 0xFF00000000) ∧
    ¬reserved (opField 0x0100000000) ∧ ¬reserved (opField 0x3200000000) ∧
    operandError (.setw 33) ∧ ¬operandError (.setw 32) ∧ ¬operandError (.pushb 255) ∧ ¬operandError (.start 0) ∧
    isSet (.setw 32) ∧ computing.active = true ∧ sequenceError idle (.pushb 255) ∧ sequenceError idle (.getres 0) ∧
    configError Regs.reset (.start 0) ∧ ¬configError idle (.start 0) := by
  refine ⟨rfl, by decide, ?_, ?_, ?_, ?_, ?_, ?_, ?_, ?_, trivial, rfl, rfl, rfl, rfl, ?_⟩
  all_goals first
    | (simp only [reserved]; decide)
    | (simp only [operandError]; decide)
    | (simp only [configError]; decide)

/-- FailedCommandsWriteNothing, FailedCommandsAreAsIfNotSent: a command that fails. -/
theorem witness_failed : (step ⟨idle, Port.reset, commands [0x3200000000]⟩ =
      .next ⟨idle, { Port.reset with rsp := some ⟨.errSeq, 0⟩ }, []⟩) ∧ Status.errSeq ≠ .ok := ⟨rfl, by decide⟩

/-- ResponseWordsRoundTrip: a word that is a response, and one that is none. -/
theorem witness_response : Response.decode 0x0000029B1 = some ⟨.ok, 0x29B1⟩ ∧ 6 ≤ (0x600000000 : RspWord).toNat / 2 ^ 32 ∧
    (0x5FFFFFFFF : RspWord).toNat / 2 ^ 32 = 5 := by decide

/-- CommandsChangeOnlyTheirRegisters, FlagsAreWrittenBy…, ResultStays…, StartIsIdempotent…: executions that end in a
next state with a response. -/
theorem witness_exec : (∃ t, exec (.start 0) (at_ idle) = .next t ∧ t.port.rsp = some ⟨.ok, 0⟩) ∧
    (∃ t, exec (.finish 0) (at_ computing) = .next t ∧ t.port.rsp ≠ none) ∧
    (∃ t, exec (.srst 0) (at_ computing) = .next t ∧ t.port.rsp = some ⟨.ok, 0⟩) ∧
    (∃ t, exec (.getw 0) (at_ idle) = .next t) ∧ (Instr.getw 0).opcode.extractLsb' 4 4 = 2 :=
  ⟨⟨_, rfl, rfl⟩, ⟨_, rfl, by decide⟩, ⟨_, rfl, rfl⟩, ⟨_, rfl⟩, by decide⟩

/-- StartIsIdempotentFinishIsNot: two `START`s in a row. -/
theorem witness_start_twice : ∃ t u, exec (.start 0) (at_ idle) = .next t ∧ exec (.start 0) t = .next u :=
  ⟨_, _, rfl, rfl⟩

/-- EncodeOfDecodeIsTheWord, StepExecutesTheDecodedCommand: a word that decodes to a command, with no offer and with
that offer; both clauses of the first. -/
theorem witness_decoded : decode 0x1000000020 = .instr (.setw 32) ∧ (Instr.setw 32).wf = true ∧
    decode 0x1000000021 = .instr (.setw 33) ∧ (Instr.setw 33).wf = false ∧ Port.reset.offer = none ∧
    ({ answered with offer := some 0x1000000020 } : Port).offer = some 0x1000000020 := by decide

/-- OpcodeLowNibbleIsTheRegisterIndex: a `SET`, a `GET`, an index that names nothing. -/
theorem witness_nibble : isSet (.setr 3) ∧ (Instr.getres 0).opcode.extractLsb' 4 4 = 2 ∧
    (∃ t, exec (.getres 0) (at_ finished) = .next t ∧ t.port.rsp = some ⟨.ok, 0x29B1⟩) ∧
    (∃ t, exec (.setr 3) (at_ idle) = .next t ∧ t.port.rsp = some ⟨.ok, 0⟩) ∧ 7 ≤ (7 : BitVec 4).toNat :=
  ⟨trivial, by decide, ⟨_, rfl, rfl⟩, ⟨_, rfl, rfl⟩, by decide⟩

/-- AcceptingEdgeExecutesTheCommand, EveryAcceptedCommandIsAnsweredInTime (first part, no edge waited, and just enough
edges waited), HostActsAreSequencesOfEdges: an edge at which a word is accepted. -/
theorem witness_accept : (⟨false, true, 0x2500000000, false⟩ : Pins).rst = false ∧ Port.reset.cmdReady = true ∧
    Port.reset.offer = none ∧ Port.reset.heldBy (some 0x2500000000) = true ∧
    decode 0x2500000000 = .instr (.gets 0) ∧ ([] : List Pins).length < Config.latency (opField 0x2500000000) ∧
    (∀ p ∈ List.replicate (Config.latency (opField 0x2500000000) - 1) idlePins, p.rst = false ∧ p.offered = none) ∧
    (List.replicate (Config.latency (opField 0x2500000000) - 1) idlePins).length + 1 =
      Config.latency (opField 0x2500000000) :=
  ⟨rfl, rfl, rfl, rfl, by decide, Nat.succ_pos _, by intro p hp; rw [List.eq_of_mem_replicate hp]; decide,
    by simp [Config.latency]⟩

/-- AcceptingEdgeExecutesTheCommand: a reserved word at an accepting edge, a word accepted that was on offer already (at
the end of reset, say), an edge with nothing offered, and, of the edges that accept nothing, one in reset, one with the response taken, one with it held, one with latency to run, one with
`rst = 1`. -/
theorem witness_edges : decode 0x3300000000 = .reservedOpcode 0x33 ∧ Port.reset.cmdReady = true ∧
    ({ Port.reset with offer := some 0x2500000000 } : Port).cmdReady = true ∧
    (∃ t, step ⟨idle, { Port.reset with offer := some 0x2500000000 }, [.edge ⟨false, true, 0x2500000000, false⟩]⟩ = .next t ∧
      t.port.offer = none ∧ t.port.rsp = some ⟨.ok, 0⟩) ∧
    idlePins.cmdValid = false ∧ idlePins.rst = false ∧
    (∃ t, step ⟨idle, ⟨none, 0, true, none, []⟩, [.edge idlePins]⟩ = .next t) ∧
    (∃ t, step ⟨idle, answered, [.edge ⟨false, false, 0, true⟩]⟩ = .next t ∧ t.port.rsp = none) ∧
    (∃ t, step ⟨idle, answered, [.edge idlePins]⟩ = .next t ∧ t.port.rsp = answered.rsp) ∧
    (∃ t, step ⟨idle, { answered with wait := 1 }, [.edge idlePins]⟩ = .next t ∧ t.port.wait = 0) ∧
    (∃ t, step ⟨idle, answered, [.edge ⟨true, true, 0, true⟩]⟩ = .next t) :=
  ⟨by decide, rfl, rfl, ⟨_, rfl, rfl, rfl⟩, rfl, rfl, ⟨_, rfl⟩, ⟨_, rfl, rfl⟩, ⟨_, rfl, rfl⟩, ⟨_, rfl, rfl⟩, ⟨_, rfl⟩⟩

/-- HostActsAreSequencesOfEdges: channels in order and in reset; a word on offer, handed over; a response outstanding
with no latency to run and with some, with an offer held and with none; nothing outstanding. -/
theorem witness_acts : (⟨none, 0, true, none, []⟩ : Port).Inv ∧
    ({ answered with offer := some 0x2500000000 } : Port).heldBy (some 0x2500000000) = true ∧
    (⟨false, true, 0x2500000000, true⟩ : Pins).offered = some 0x2500000000 ∧
    (⟨false, false, 0, true⟩ : Pins).offered = answered.offer ∧ answered.rsp ≠ none ∧ answered.wait = 0 ∧
    ({ answered with wait := 2 } : Port).inReset = false ∧ Port.reset.Inv ∧ Port.reset.rsp = none :=
  ⟨⟨fun _ => rfl, fun _ => ⟨rfl, rfl⟩⟩, by decide, rfl, rfl, by decide, rfl, rfl,
    ⟨fun _ => rfl, fun _ => ⟨rfl, rfl⟩⟩, rfl⟩

/-- FlagsAreWrittenByStartFinishSrstOnly, over a step: each of the four causes changes a flag. -/
theorem witness_flag_steps : resets ⟨computing, Port.reset, [.edge ⟨true, false, 0, false⟩]⟩ ∧
    (∃ t, step ⟨computing, Port.reset, [.edge ⟨true, false, 0, false⟩]⟩ = .next t ∧ t.regs.active = false) ∧
    (∃ t, step ⟨idle, Port.reset, [.edge ⟨false, true, 0x3000000000, false⟩]⟩ = .next t ∧ t.regs.active = true) ∧
    (∃ t, step ⟨computing, Port.reset, [.command 0x3200000000]⟩ = .next t ∧ t.regs.rvalid = true) ∧
    (∃ t, step ⟨finished, Port.reset, [.command 0x0100000000]⟩ = .next t ∧ t.regs.rvalid = false) :=
  ⟨.inr ⟨_, _, rfl, rfl⟩, ⟨_, rfl, rfl⟩, ⟨_, rfl, rfl⟩, ⟨_, rfl, rfl⟩, ⟨_, rfl, rfl⟩⟩

/-- NoCommandIsAcceptedBeforeTheResponseIsTaken (taken, held by the host, not yet valid),
EveryAcceptedCommandIsAnsweredInTime (second part). -/
theorem witness_outstanding : answered.inReset = false ∧ answered.rsp = some ⟨.ok, 0⟩ ∧ answered.rspValid = true ∧
    ({ answered with wait := 1 } : Port).rspValid = false ∧ answered.offer = none ∧
    answered.heldBy (⟨false, true, 0x2500000000, false⟩ : Pins).offered = true ∧
    (∃ t, step ⟨idle, answered, [.edge ⟨false, true, 0x2500000000, true⟩]⟩ = .next t) ∧
    (∃ t, step ⟨idle, { answered with wait := 1 }, [.edge ⟨false, true, 0x2500000000, true⟩]⟩ = .next t) :=
  ⟨rfl, rfl, rfl, rfl, rfl, rfl, ⟨_, rfl⟩, ⟨_, rfl⟩⟩

/-- StepStopsOnlyOnABrokenHandshake: both ways to break it, and an idle state. -/
theorem witness_broken : State.reset.inbox = [] ∧
    step ⟨idle, { answered with offer := some 0 }, [.command 1]⟩ = .refused .hostBrokeHandshake ∧
    step ⟨idle, { answered with offer := some 0 }, [.edge ⟨false, true, 1, false⟩]⟩ =
      .refused .hostBrokeHandshake := ⟨rfl, rfl, rfl⟩

/-- StepKeepsTheInvariants, ParametersAreFixedDuringAComputation: a step from a state that meets them, computing, with
a `FINISH` since reset and with none. -/
theorem witness_step_inv : computing.Inv ∧ computing.ResultInv none ∧ computing.ResultInv (some 16) ∧
    computing.active = true ∧
    step ⟨computing, Port.reset, [.command 0x3200000000]⟩ =
      .next ⟨{ computing with result := 0xC782, rvalid := true, active := false },
        { Port.reset with rsp := some ⟨.ok, 0xC782⟩ }, []⟩ :=
  ⟨witness_inv, ⟨by decide, by simp, fun _ => rfl⟩,
    ⟨by decide, fun _ _ i _ => by simp [computing, idle], by simp⟩, rfl, rfl⟩

/-- ParametersAreFixedDuringAComputation (second part): a `SET` with a legal operand. -/
theorem witness_busy : isSet (.setw 32) ∧ ¬operandError (.setw 32) ∧ computing.active = true :=
  ⟨trivial, by simp only [operandError]; decide, rfl⟩

/-- StepKeepsTheChannelsInOrder: channels in order, with a response to come, and a step. -/
theorem witness_port : ({ answered with wait := 2 } : Port).Inv ∧
    ∃ t, step ⟨idle, { answered with wait := 2 }, [.edge idlePins]⟩ = .next t :=
  ⟨⟨by simp [answered], by simp [answered]⟩, ⟨_, rfl⟩⟩

/-- HiddenRegistersCannotBeObserved: idle states that differ in `ACC` and `RESULT`, and a step. -/
theorem witness_hidden : SameVisible idle { idle with acc := 7, result := 9 } ∧
    step ⟨idle, Port.reset, []⟩ = .next ⟨idle, Port.reset, []⟩ :=
  ⟨⟨rfl, by decide, by decide⟩, rfl⟩

/-- MaskHasTheLowBitsSet, ReflectReverses…, CrcStep…, FinalXor…, ByteFormAgrees: widths at both ends, bits on both
sides of the width, a register clear above it, a final XOR value that is its own reflection. -/
theorem witness_widths : (1 ≤ 1 ∧ 1 ≤ 32) ∧ (1 ≤ 32 ∧ 32 ≤ 32) ∧ (8 ≤ 8 ∧ 8 ≤ 32) ∧ ClearAbove 8 0 ∧
    (0x7F : Word).getLsbD (8 - 1) = false ∧ Crc.reflect 8 0xFF = 0xFF &&& Crc.mask 8 :=
  ⟨by decide, by decide, by decide, fun i _ => by simp, by decide, by decide⟩

/-- WindowedAlgorithmAgrees, ShortLastWindowIsAlignedToTheTop: a width and a length; with a byte left over. -/
theorem witness_windows : 24 ∈ [8, 16, 24, 32] ∧ 24 / 8 ∣ ([1, 2, 3] : List Byte).length ∧ ¬24 / 8 ∣ check.length + 1 := by
  decide

/-- ChecksumIsLinear, with the vectors V29; ZeroPolynomial…; BitsAboveTheWidth…, with the parameters of V23a. -/
theorem witness_linear : ([0x11, 0x22, 0x33] : List Byte).length = ([0xA0, 0x0B, 0xC7] : List Byte).length ∧
    (0xFFFFFF00 : Word) &&& Crc.mask 8 = 0 ∧ 8 ≤ [true, false, true, true, false, false, true, false].length ∧
    (0xABCDEF07 : Word) &&& Crc.mask 8 = 0x07 &&& Crc.mask 8 := by decide

/-- WholeComputation…, ChecksumDependsOn…: a body with a byte, a refused byte, a `GET` and a reserved word. -/
theorem witness_body : Port.reset.offer = none ∧ idle.width ≠ 0 ∧
    (∀ w ∈ [0x3100000031, 0x3100000100, 0x2500000000, (0x3300000000 : CmdWord)], ¬steers w) ∧
    message [0x3100000031, 0x3100000100, 0x2500000000, 0x3300000000] = [0x31] ∧ finished.params = idle.params :=
  ⟨rfl, by decide, by simp [steers], rfl, rfl⟩

/-- CanonicalSequenceComputesTheChecksum: widths at both ends and a text. -/
theorem witness_canonical : finished.active = false ∧ 1 ≤ (1 : Word).toNat ∧ (32 : Word).toNat ≤ 32 ∧
    ∀ c ∈ ['1', 'a', '~'], c.toNat ≤ 127 :=
  ⟨rfl, by decide, by decide, by simp⟩

/-- StartNeedsAWidthFirst: words among which no `SETW` succeeds. -/
theorem witness_no_width : ∀ w ∈ [(0x1000000000 : CmdWord), 0x1100001021], ∀ arg, decode w = .instr (.setw arg) →
    operandError (.setw arg) := by
  intro w hw arg h
  simp only [List.mem_cons, List.not_mem_nil, or_false] at hw
  rcases hw with rfl | rfl
  · have h' : decode 0x1000000000 = .instr (.setw 0) := by decide
    rw [h'] at h; cases h
    simp only [operandError]; decide
  · have h' : decode 0x1100001021 = .instr (.setp 0x1021) := by decide
    rw [h'] at h; cases h

end Sys2Proof.Tests
end

section
/-! PROOFS. The claims' words tied to the laws of the machine: `Gives` and `answered`, `operandError` and `wf`, `isSet`
and the errors of a `SET`. -/

namespace Sys2Proof.Proofs

open Sys2Proof.Machine Sys2Proof.Claims

theorem gives_iff (i : Instr) (s : State) (r : Regs) (a : Response) :
    Gives i s r a ↔ exec i s = .next (s.answered r a) := Iff.rfl

/-- Where an execution is known to leave the registers `r`, every state it gives has them. -/
theorem regs_of_exec {i : Instr} {s t : State} {r : Regs} {a : Response} (h : exec i s = .next t)
    (e : exec i s = .next (s.answered r a)) : t.regs = r := by
  rw [e] at h
  cases h
  rfl

/-- The causes of `ERR_ARG` (60_exceptions.md R94) are the operands the form does not admit (30_encoding.md R47). -/
theorem wf_iff_not_operandError (i : Instr) : i.wf = true ↔ ¬operandError i := by
  cases i with
  | nop arg | srst arg | getw arg | getp arg | geti arg | getx arg | getr arg | gets arg | getres arg | start arg
  | finish arg => exact (wf_a0 arg).trans not_not.symm
  | setw arg =>
    calc Form.legal .aw arg = true ↔ 1 ≤ arg.toNat ∧ arg.toNat ≤ 32 := by rw [wf_aw, Operand.fitsAW_iff]
      _ ↔ ¬operandError (.setw arg) := not_not.symm
  | setr arg =>
    calc Form.legal .ar arg = true ↔ arg.toNat ≤ 3 := by rw [wf_ar, Operand.fitsAR_iff]
      _ ↔ ¬operandError (.setr arg) := not_lt.symm
  | pushb arg =>
    calc Form.legal .ab arg = true ↔ arg.toNat ≤ 255 := by rw [wf_ab, Operand.fitsAB_iff]
      _ ↔ ¬operandError (.pushb arg) := not_lt.symm
  | setp arg | seti arg | setx arg => exact iff_of_true rfl not_false

theorem isSet_iff (i : Instr) :
    isSet i ↔ ∃ arg, i = .setw arg ∨ i = .setp arg ∨ i = .seti arg ∨ i = .setx arg ∨ i = .setr arg := by
  cases i <;> simp [isSet]

/-- A `SET` with an operand of its form, during a computation (10_state.md R24, 60_exceptions.md R95). -/
theorem exec_set_of_active {i : Instr} {s : State} (hset : isSet i) (hwf : i.wf = true)
    (hact : s.regs.active = true) : exec i s = .next (s.answered s.regs ⟨.errBusy, 0⟩) := by
  obtain ⟨arg, hi⟩ := (isSet_iff i).mp hset
  cases exec_ends i s with
  | errBusy _ _ _ e => exact e
  | errArg hw _ => simp [hwf] at hw
  | set _ _ _ idle _ _ => simp [hact] at idle
  | errSeq _ hj _ => rcases hi with rfl | rfl | rfl | rfl | rfl <;> simp at hj
  | get _ hj _ => rcases hi with rfl | rfl | rfl | rfl | rfl <;> simp at hj
  | errCfg hj _ _ | nop hj _ | srst hj _ | start hj _ _ | pushb _ hj _ _ _ | finish hj _ _ => subst hj; simp at hi

end Sys2Proof.Proofs
end

section
/-! PROOFS. The state (10_state.md): the parameter set is fixed during a computation (R24), and the reset values
(R27). -/

namespace Sys2Proof.Proofs

open Sys2Proof.Machine Sys2Proof.Claims

/-! The computation commands leave the parameter set (41_compute.md R79 to R81). -/

@[simp] theorem started_params (r : Regs) : r.started.params = r.params := rfl

@[simp] theorem absorbed_params (r : Regs) (d : Byte) : (r.absorbed d).params = r.params := rfl

@[simp] theorem finished_params (r : Regs) : r.finished.params = r.params := rfl

/-- 10_state.md R24 for one command: only `SRST` touches the parameter set during a computation, since the write of a
`SET` stands under `ACTIVE = 0`. -/
theorem exec_keeps_params_of_active {i : Instr} {s t : State} (hact : s.regs.active = true)
    (h : exec i s = .next t) : t.regs.params = s.regs.params ∨ t.regs = Regs.reset := by
  cases exec_ends i s with
  | set _ _ _ idle _ _ => simp [hact] at idle
  | srst _ e => exact .inr (regs_of_exec h e)
  | errArg _ e | errBusy _ _ _ e | errSeq _ _ e | errCfg _ _ e | nop _ e | get _ _ e =>
    exact .inl (by rw [regs_of_exec h e])
  | start _ _ e => exact .inl (by rw [regs_of_exec h e, started_params])
  | pushb _ _ _ _ e => exact .inl (by rw [regs_of_exec h e, absorbed_params])
  | finish _ _ e => exact .inl (by rw [regs_of_exec h e, finished_params])

/-- The same of an accepted word; a reserved opcode writes no register (30_encoding.md R50). -/
theorem runWord_keeps_params_of_active {w : CmdWord} {s t : State} (hact : s.regs.active = true)
    (h : runWord w s = .next t) : t.regs.params = s.regs.params ∨ t.regs = Regs.reset := by
  unfold runWord at h
  split at h
  · exact exec_keeps_params_of_active hact h
  · cases h; exact .inl rfl

/-- 10_state.md R24 for one step of the engine. -/
theorem step_keeps_params_of_active {s t : State} (hact : s.regs.active = true) (h : step s = .next t) :
    t.regs.params = s.regs.params ∨ t.regs = Regs.reset := by
  rcases step_regs h with hkept | hreset | ⟨w, s', hregs, hw⟩
  · exact .inl (by rw [hkept])
  · exact .inr hreset
  · have hact' : s'.regs.active = true := by rw [hregs]; exact hact
    simpa only [hregs] using runWord_keeps_params_of_active hact' hw

/-- Settles O40: a step keeps the registers, resets them or runs a word, and no word but `SRST` writes a parameter while
`ACTIVE = 1`. -/
theorem parametersAreFixedDuringAComputation : Obligations.ParametersAreFixedDuringAComputation := by
  refine ⟨fun s t hact h => step_keeps_params_of_active hact h, fun i s hset harg hact => ?_⟩
  have hwf : i.wf = true := (wf_iff_not_operandError i).mpr harg
  exact (gives_iff i s s.regs _).mpr (exec_set_of_active hset hwf hact)

/-- `SRST` with its legal operand (42_system.md R87). -/
theorem exec_srst_zero (s : State) : exec (.srst 0) s = .next (s.answered Regs.reset ⟨.ok, 0⟩) := by
  rw [exec, execSrst, Operand.fitsA0_zero, if_neg (by simp), respond_setRegs_eq]

/-- Settles O1: the reset edge, the reset event and `SRST` each leave `Regs.reset`, whose ten fields are 0. -/
theorem resetAndSrstGiveTheResetValues : Obligations.ResetAndSrstGiveTheResetValues := by
  refine ⟨rfl, fun s rest => ⟨fun pins hrst => ?_, ?_, ?_⟩⟩
  · exact ⟨_, step_edge_reset s.regs s.port pins rest hrst, rfl⟩
  · exact ⟨_, step_reset s.regs s.port rest, rfl⟩
  · exact exec_srst_zero s

end Sys2Proof.Proofs
end

section
/-! PROOFS. Encoding and failures (30_encoding.md, 60_exceptions.md): the reserved opcodes (R50, R93), the causes of
`ERR_ARG` (R51, R94), and the data of a response (R55). -/

namespace Sys2Proof.Proofs

open Sys2Proof.Machine Sys2Proof.Claims

/-- An execution has one response. -/
theorem response_of_exec {i : Instr} {s : State} {r r' : Regs} {a b : Response}
    (h : exec i s = .next (s.answered r a)) (h' : exec i s = .next (s.answered r' b)) : a = b := by
  rw [h] at h'
  cases h'
  rfl

/-! ## Reserved opcodes -/

/-- The four ranges of 30_encoding.md R50 are what the opcode map of R48 leaves out. -/
theorem reserved_iff_notMem_opcodeTable (op : BitVec 8) : reserved op ↔ op ∉ opcodeTable.map Row.opcode := by
  simp only [reserved, opcodeTable, List.map_append, List.map_cons, List.map_nil, List.mem_append, List.mem_cons,
    List.not_mem_nil, or_false, ← BitVec.toNat_inj, BitVec.ofNat_eq_ofNat, BitVec.toNat_ofNat]
  omega

theorem decode_of_reserved {w : CmdWord} (h : reserved (opField w)) : decode w = .reservedOpcode (opField w) := by
  have hnot := (reserved_iff_notMem_opcodeTable _).mp h
  refine decode_of_no_row w (List.find?_eq_none.mpr fun r hr heq => hnot ?_)
  exact List.mem_map.mpr ⟨r, hr, beq_iff_eq.mp heq⟩

theorem exists_decode_of_not_reserved {w : CmdWord} (h : ¬reserved (opField w)) : ∃ i, decode w = .instr i := by
  have hmem : opField w ∈ opcodeTable.map Row.opcode := by
    simpa only [reserved_iff_notMem_opcodeTable, not_not] using h
  obtain ⟨r, hr, hop⟩ := List.mem_map.mp hmem
  have hsome : (opcodeTable.find? fun r => r.opcode == opField w).isSome :=
    List.find?_isSome.mpr ⟨r, hr, beq_iff_eq.mpr hop⟩
  obtain ⟨row, hrow⟩ := Option.isSome_iff_exists.mp hsome
  exact ⟨_, decode_of_row w row hrow⟩

theorem runWord_of_reserved {w : CmdWord} (h : reserved (opField w)) (s : State) :
    runWord w s = .next (s.answered s.regs ⟨.errOp, 0⟩) := by
  rw [runWord, decode_of_reserved h]
  rfl

theorem runWord_of_decode {w : CmdWord} {i : Instr} (h : decode w = .instr i) (s : State) :
    runWord w s = exec i s := by
  rw [runWord, h]

/-- No command of the opcode map answers `ERR_OP` (60_exceptions.md R93). -/
theorem exec_status_ne_errOp (i : Instr) (s : State) :
    ∃ r a, exec i s = .next (s.answered r a) ∧ a.status ≠ .errOp := by
  cases exec_ends i s with
  | errArg _ e | errBusy _ _ _ e | errSeq _ _ e | errCfg _ _ e | nop _ e | srst _ e | set _ _ _ _ _ e | get _ _ e
  | start _ _ e | pushb _ _ _ _ e | finish _ _ e => exact ⟨_, _, e, nofun⟩

/-- A word handed over by a host that has no word on offer is executed at once. -/
theorem step_command_of_no_offer {s : State} (h : s.port.offer = none) (w : CmdWord) (rest : List HostEvent) :
    step { s with inbox := .command w :: rest } = runWord w ⟨s.regs, s.port.accepting, rest⟩ :=
  step_command s.regs s.port w rest (by rw [Port.heldBy, h])

/-- Settles O16: the reserved ranges are the opcodes without a row, and no command with a row answers `ERR_OP`. -/
theorem reservedOpcodesFailAndNoOthers : Obligations.ReservedOpcodesFailAndNoOthers := by
  intro s w rest hoffer
  rw [step_command_of_no_offer hoffer]
  by_cases hres : reserved (opField w)
  · exact ⟨_, _, runWord_of_reserved hres _, rfl, fun _ => ⟨rfl, rfl⟩, fun hnot => absurd hres hnot⟩
  · obtain ⟨i, hi⟩ := exists_decode_of_not_reserved hres
    obtain ⟨r, a, he, ha⟩ := exec_status_ne_errOp i ⟨s.regs, s.port.accepting, rest⟩
    exact ⟨_, a, (runWord_of_decode hi _).trans he, rfl, fun h => absurd h hres, fun _ => ha⟩

/-! ## Operand errors -/

/-- `ERR_ARG` has no cause but the operand: a command whose operand does not fit its form answers it without effect, any
other command answers something else (60_exceptions.md R94). -/
theorem exec_errArg_cases (i : Instr) (s : State) :
    (i.wf = false ∧ exec i s = .next (s.answered s.regs ⟨.errArg, 0⟩)) ∨
    (i.wf = true ∧ ∃ r a, exec i s = .next (s.answered r a) ∧ a.status ≠ .errArg) := by
  cases exec_ends i s with
  | errArg hw e => exact .inl ⟨hw, e⟩
  | errBusy hw _ _ e | errSeq hw _ e | set _ _ hw _ _ e => exact .inr ⟨hw, _, _, e, nofun⟩
  | errCfg hi _ e | nop hi e | srst hi e | start hi _ e | finish hi _ e =>
    exact .inr ⟨by rw [hi]; rfl, _, _, e, nofun⟩
  | get n hi e =>
    have hw : i.wf = true := by
      rcases hi with ⟨_, rfl⟩ | ⟨_, rfl⟩ | ⟨_, rfl⟩ | ⟨_, rfl⟩ | ⟨_, rfl⟩ | ⟨_, rfl⟩ | ⟨_, rfl, _⟩ <;> rfl
    exact .inr ⟨hw, _, _, e, nofun⟩
  | pushb arg hi byte _ e =>
    have hw : i.wf = true := by rw [hi]; exact (wf_ab arg).trans ((Operand.fitsAB_iff arg).mpr byte)
    exact .inr ⟨hw, _, _, e, nofun⟩

theorem operandError_iff_wf_false (i : Instr) : operandError i ↔ i.wf = false := by
  rw [← Bool.not_eq_true, wf_iff_not_operandError, not_not]

/-- Settles O17: where the operand fits its form the status is not `ERR_ARG`, and where it does not, the command fails
before any other check. -/
theorem operandErrorsAreExactlyErrArg : Obligations.OperandErrorsAreExactlyErrArg := by
  intro i s
  rw [gives_iff, operandError_iff_wf_false]
  rcases exec_errArg_cases i s with ⟨hw, e⟩ | ⟨hw, r, a, e, ha⟩
  · exact ⟨iff_of_true hw e, Iff.rfl, _, _, e, rfl, iff_of_true rfl hw⟩
  · have hnot : ¬i.wf = false := by rw [hw]; exact Bool.noConfusion
    have hgives : exec i s ≠ .next (s.answered s.regs ⟨.errArg, 0⟩) := fun h =>
      ha (congrArg Response.status (response_of_exec e h))
    exact ⟨iff_of_false hnot hgives, Iff.rfl, _, a, e, rfl, iff_of_false ha hnot⟩

/-! ## Response data -/

/-- Settles O21: a `GET` reads the register it is for, `FINISH` returns the checksum it stores, every other success and
every failure answers 0. -/
theorem responseDataPerCommand : Obligations.ResponseDataPerCommand := by
  intro i s
  cases exec_ends i s with
  | errArg _ e | errBusy _ _ _ e | errSeq _ _ e | errCfg _ _ e => exact ⟨_, _, e, rfl, nofun, fun _ => rfl⟩
  | nop hi e | srst hi e | start hi _ e | pushb _ hi _ _ e | finish hi _ e =>
    subst hi
    exact ⟨_, _, e, rfl, fun _ => rfl, fun h => absurd rfl h⟩
  | set n arg _ _ hi e =>
    have hdata : returned s.regs i = 0 := by
      rcases hi with ⟨_, rfl⟩ | ⟨_, rfl⟩ | ⟨_, rfl⟩ | ⟨_, rfl⟩ | ⟨_, rfl⟩ <;> rfl
    exact ⟨_, _, e, rfl, fun _ => hdata.symm, fun h => absurd rfl h⟩
  | get n hi e =>
    have hdata : s.regs.read n = returned s.regs i := by
      rcases hi with ⟨rfl, rfl⟩ | ⟨rfl, rfl⟩ | ⟨rfl, rfl⟩ | ⟨rfl, rfl⟩ | ⟨rfl, rfl⟩ | ⟨rfl, rfl⟩ | ⟨rfl, rfl, _⟩
      · exact (BitVec.ofNat_toNat 32 s.regs.width).symm
      · rfl
      · rfl
      · rfl
      · exact pairWord_eq _ _
      · exact pairWord_eq _ _
      · rfl
    exact ⟨_, _, e, rfl, fun _ => hdata, fun h => absurd rfl h⟩

end Sys2Proof.Proofs
end

section
/-! PROOFS. The configuration commands (40_config.md): the word of a command decodes to it, what a `SET` writes and a
`GET` reads (R56, R62), and the ten commands one by one (R57 to R67). -/

namespace Sys2Proof.Proofs

open Sys2Proof.Machine Sys2Proof.Claims

/-! ## The words of the commands -/

/-- Every command has its row in the opcode map (30_encoding.md R48). -/
theorem exists_row_of_command (i : Instr) :
    ∃ r, opcodeTable.find? (fun r => r.opcode == i.opcode) = some r ∧ r.make i.arg = i := by
  cases i with
  | nop arg | srst arg | setw arg | setp arg | seti arg | setx arg | setr arg | getw arg | getp arg | geti arg
  | getx arg | getr arg | gets arg | getres arg | start arg | pushb arg | finish arg => exact ⟨_, rfl, rfl⟩

@[simp] theorem decode_encode (i : Instr) : decode (encode i) = .instr i := by
  obtain ⟨r, hrow, hmake⟩ := exists_row_of_command i
  rw [decode_of_row (encode i) r (by rwa [opField_encode]), argField_encode, hmake]

/-- A command's word spelled as a number, the opcode at its place above the operand (30_encoding.md R45). -/
theorem decode_ofNat_opcode_add_arg (i : Instr) {op : Nat} (hop : i.opcode.toNat * 2 ^ 32 = op) :
    decode (BitVec.ofNat 40 (op + i.arg.toNat)) = .instr i := by
  rw [← hop, ofNat_opcode_arg]
  exact decode_encode i

/-! ## The shapes of a `SET` and a `GET` -/

/-- A `SET` that succeeds (40_config.md R56). -/
theorem setParam_of_idle {n : RegName} {fits : Bool} {arg : Word} {s : State} (hfits : fits = true)
    (hidle : s.regs.active = false) :
    setParam n fits arg s = .next (s.answered (s.regs.write arg n) ⟨.ok, 0⟩) := by
  simp [setParam, hfits, hidle, respond_setRegs_eq]

/-- A `GET` with its legal operand (40_config.md R62). -/
theorem getReg_zero (n : RegName) (s : State) :
    getReg n 0 s = .next (s.answered s.regs ⟨.ok, s.regs.read n⟩) := by
  simp [getReg, respond_eq]

theorem gives_errArg_of_operandError (i : Instr) (h : operandError i) (s : State) :
    Gives i s s.regs ⟨.errArg, 0⟩ :=
  (operandErrorsAreExactlyErrArg i s).1.mp h

theorem gives_errBusy_of_isSet {i : Instr} {s : State} (hset : isSet i) (harg : ¬operandError i)
    (hact : s.regs.active = true) : Gives i s s.regs ⟨.errBusy, 0⟩ :=
  parametersAreFixedDuringAComputation.2 i s hset harg hact

/-! ## `SETW` -/

theorem operandWidth_eq_ofNat (arg : Word) : Operand.width arg = BitVec.ofNat 6 arg.toNat := by
  apply BitVec.eq_of_toNat_eq
  rw [Operand.width_toNat, BitVec.toNat_ofNat]

theorem gives_setw_of_idle {s : State} {arg : Word} (hlo : 1 ≤ arg.toNat) (hhi : arg.toNat ≤ 32)
    (hidle : s.regs.active = false) :
    Gives (.setw arg) s { s.regs with width := BitVec.ofNat 6 arg.toNat } ⟨.ok, 0⟩ := by
  rw [← operandWidth_eq_ofNat]
  exact setParam_of_idle ((Operand.fitsAW_iff arg).mpr ⟨hlo, hhi⟩) hidle

/-- The only command that gives a width where there was none (40_config.md R57): `SRST` writes 0, and the others keep
`WIDTH`. -/
theorem eq_setw_of_exec_gives_width {i : Instr} {s t : State} (h : exec i s = .next t) (hzero : s.regs.width = 0)
    (hwidth : t.regs.width ≠ 0) : ∃ arg, i = .setw arg := by
  cases exec_ends i s with
  | set n arg _ _ hi e =>
    rw [regs_of_exec h e] at hwidth
    rcases hi with ⟨_, hi⟩ | ⟨rfl, _⟩ | ⟨rfl, _⟩ | ⟨rfl, _⟩ | ⟨rfl, _⟩
    · exact ⟨arg, hi⟩
    all_goals exact absurd hzero hwidth
  | srst _ e => exact absurd (by rw [regs_of_exec h e]; rfl) hwidth
  | errArg _ e | errBusy _ _ _ e | errSeq _ _ e | errCfg _ _ e | nop _ e | get _ _ e | start _ _ e
  | pushb _ _ _ _ e | finish _ _ e =>
    rw [regs_of_exec h e] at hwidth
    exact absurd hzero hwidth

theorem decode_setw_word {w : Nat} (h : w ≤ 32) :
    decode (BitVec.ofNat 40 (0x1000000000 + w)) = .instr (.setw (BitVec.ofNat 32 w)) := by
  have harg : (BitVec.ofNat 32 w).toNat = w := by rw [BitVec.toNat_ofNat]; omega
  have hword := decode_ofNat_opcode_add_arg (.setw (BitVec.ofNat 32 w)) (op := 0x1000000000)
    (by simp [Instr.opcode])
  rwa [Instr.arg, harg] at hword

/-- Settles O7: the write of `WIDTH` stands under a legal operand and `ACTIVE = 0`, and no other command's write makes
`WIDTH` nonzero. -/
theorem setwSetsTheWidth : Obligations.SetwSetsTheWidth := by
  refine ⟨fun s arg hlo hhi hidle => gives_setw_of_idle hlo hhi hidle,
    fun s arg hbad => gives_errArg_of_operandError (.setw arg) hbad s,
    fun s arg hlo hhi hact => gives_errBusy_of_isSet trivial (not_not.mpr ⟨hlo, hhi⟩) hact,
    fun i s t h hzero hwidth => eq_setw_of_exec_gives_width h hzero hwidth,
    fun w _ hhi => decode_setw_word hhi⟩

/-! ## `SETP`, `SETI`, `SETX` -/

/-- Settles O8: every operand fits the form `A32`, so the one check left is that of `ACTIVE`. -/
theorem setpSetiSetxStoreTheOperand : Obligations.SetpSetiSetxStoreTheOperand := by
  intro s arg
  refine ⟨fun hidle => ⟨?_, ?_, ?_⟩, fun hact => ⟨?_, ?_, ?_⟩, ?_, ?_, ?_⟩
  · exact setParam_of_idle (n := .poly) (Operand.fitsA32_true arg) hidle
  · exact setParam_of_idle (n := .init) (Operand.fitsA32_true arg) hidle
  · exact setParam_of_idle (n := .xorout) (Operand.fitsA32_true arg) hidle
  · exact gives_errBusy_of_isSet trivial not_false hact
  · exact gives_errBusy_of_isSet trivial not_false hact
  · exact gives_errBusy_of_isSet trivial not_false hact
  · exact decode_ofNat_opcode_add_arg (.setp arg) (by simp [Instr.opcode])
  · exact decode_ofNat_opcode_add_arg (.seti arg) (by simp [Instr.opcode])
  · exact decode_ofNat_opcode_add_arg (.setx arg) (by simp [Instr.opcode])

/-! ## `SETR` -/

/-! An operand of the form `AR` is the two-bit word of the flags it holds (30_encoding.md R47, 40_config.md R61). -/

@[simp] theorem fitsAR_pairWord (hi lo : Bool) : Operand.fitsAR (pairWord hi lo) = true := by
  cases hi <;> cases lo <;> rfl

@[simp] theorem refin_pairWord (hi lo : Bool) : Operand.refin (pairWord hi lo) = lo := by
  cases hi <;> cases lo <;> rfl

@[simp] theorem refout_pairWord (hi lo : Bool) : Operand.refout (pairWord hi lo) = hi := by
  cases hi <;> cases lo <;> rfl

/-- `SETR` writes the two flags together (40_config.md R61). -/
theorem write_refl_pairWord (r : Regs) (refin refout : Bool) :
    r.write (pairWord refout refin) .refl = { r with refin := refin, refout := refout } := by
  rw [Regs.write, refin_pairWord, refout_pairWord]

theorem gives_setr_of_idle {s : State} (refin refout : Bool) (hidle : s.regs.active = false) :
    Gives (.setr (BitVec.ofNat 32 (2 * refout.toNat + refin.toNat))) s
      { s.regs with refin := refin, refout := refout } ⟨.ok, 0⟩ := by
  rw [← pairWord_eq, ← write_refl_pairWord]
  exact setParam_of_idle (fitsAR_pairWord refout refin) hidle

/-- Settles O9: the legal operands are the four two-bit words, and each stores its two bits in the two flags. -/
theorem setrSetsBothReflectionFlags : Obligations.SetrSetsBothReflectionFlags := by
  refine ⟨fun s refin refout hidle => gives_setr_of_idle refin refout hidle,
    fun s arg hbad => gives_errArg_of_operandError (.setr arg) hbad s,
    fun s arg harg hact => gives_errBusy_of_isSet trivial (not_lt.mpr harg) hact, ?_, ?_, ?_, ?_⟩
  · exact decode_encode (.setr 0)
  · exact decode_encode (.setr 1)
  · exact decode_encode (.setr 2)
  · exact decode_encode (.setr 3)

/-! ## The parameter `GET`s -/

theorem read_width_eq_ofNat (r : Regs) : r.read .width = BitVec.ofNat 32 r.width.toNat :=
  (BitVec.ofNat_toNat 32 r.width).symm

theorem read_refl_eq_ofNat (r : Regs) : r.read .refl = BitVec.ofNat 32 (2 * r.refout.toNat + r.refin.toNat) :=
  pairWord_eq r.refout r.refin

theorem gives_getw_zero (s : State) : Gives (.getw 0) s s.regs ⟨.ok, BitVec.ofNat 32 s.regs.width.toNat⟩ := by
  rw [← read_width_eq_ofNat]
  exact getReg_zero .width s

theorem gives_getr_zero (s : State) :
    Gives (.getr 0) s s.regs ⟨.ok, BitVec.ofNat 32 (2 * s.regs.refout.toNat + s.regs.refin.toNat)⟩ := by
  rw [← read_refl_eq_ofNat]
  exact getReg_zero .refl s

/-- Settles O10: a `GET` reads its register whatever `ACTIVE` is, and a nonzero operand is its one failure. -/
theorem parameterGetsReturnTheStoredValues : Obligations.ParameterGetsReturnTheStoredValues := by
  refine ⟨fun s => ⟨gives_getw_zero s, getReg_zero .poly s, getReg_zero .init s, getReg_zero .xorout s,
    gives_getr_zero s⟩, fun s arg hbad => ⟨?_, ?_, ?_, ?_, ?_⟩, ?_, ?_, ?_, ?_, ?_⟩
  · exact gives_errArg_of_operandError (.getw arg) hbad s
  · exact gives_errArg_of_operandError (.getp arg) hbad s
  · exact gives_errArg_of_operandError (.geti arg) hbad s
  · exact gives_errArg_of_operandError (.getx arg) hbad s
  · exact gives_errArg_of_operandError (.getr arg) hbad s
  · exact decode_encode (.getw 0)
  · exact decode_encode (.getp 0)
  · exact decode_encode (.geti 0)
  · exact decode_encode (.getx 0)
  · exact decode_encode (.getr 0)

end Sys2Proof.Proofs
end

section
/-! PROOFS. The computation (41_compute.md): `mask` and `reflect_n` bit by bit (R68, R69), and the commands `START`,
`PUSHB`, `FINISH`, `GETRES` one by one (R79 to R82). -/

namespace Sys2Proof.Proofs

open Sys2Proof.Machine Sys2Proof.Claims

/-! ## The reflection -/

theorem reflect_getLsbD_mirror {n i : Nat} (v : Word) (hn : n ≤ 32) (hi : i < n) :
    (Crc.reflect n v).getLsbD (n - 1 - i) = v.getLsbD i := by
  have hlt : n - 1 - i < n := by omega
  have hback : n - 1 - (n - 1 - i) = i := by omega
  rw [Crc.reflect_getLsbD n v hn, decide_eq_true hlt, hback, Bool.true_and]

theorem reflect_getLsbD_of_le {n j : Nat} (v : Word) (hn : n ≤ 32) (hj : n ≤ j) :
    (Crc.reflect n v).getLsbD j = false := by
  rw [Crc.reflect_getLsbD n v hn, decide_eq_false (not_lt.mpr hj), Bool.false_and]

/-- Below `n` the mirror place of the mirror place is the bit's own; from `n` up both sides are 0. -/
theorem reflect_reflect {n : Nat} (v : Word) (hn : n ≤ 32) :
    Crc.reflect n (Crc.reflect n v) = v &&& Crc.mask n := by
  refine Crc.eq_of_bits fun j => ?_
  rw [Crc.and_mask_getLsbD, Crc.reflect_getLsbD n _ hn]
  by_cases hj : j < n
  · rw [reflect_getLsbD_mirror v hn hj]
  · simp only [hj, decide_false, Bool.false_and]

theorem reflect_one (v : Word) : Crc.reflect 1 v = BitVec.ofNat 32 (v.getLsbD 0).toNat := by
  rw [Crc.reflect, Crc.reflectLoop, Crc.reflectLoop]
  cases v.getLsbD 0 <;> rfl

/-- Settles O45: each bit of the result is the bit of `v` at the mirror place, so two reflections give back the low `n`
bits. -/
theorem reflectReversesTheLowBits : Obligations.ReflectReversesTheLowBits := by
  refine ⟨fun n v _ hn => ⟨fun i hi => reflect_getLsbD_mirror v hn hi, fun j hj => reflect_getLsbD_of_le v hn hj,
    reflect_reflect v hn⟩, ?_, ?_, ?_, ?_, reflect_one⟩
  all_goals decide

/-! ## The mask -/

theorem mask_toNat {W : Nat} (hW : W ≤ 32) : (Crc.mask W).toNat = 2 ^ W - 1 := by
  have hpow : 2 ^ W ≤ 2 ^ 32 := Nat.pow_le_pow_right (by decide) hW
  have hpos : 0 < 2 ^ W := Nat.two_pow_pos W
  rw [Crc.mask, BitVec.toNat_ofNat, Nat.mod_eq_of_lt (by omega)]

theorem mask_getLsbD_of_le {W : Nat} (hW : W ≤ 32) (i : Nat) : (Crc.mask W).getLsbD i = decide (i < W) := by
  rw [Crc.mask_getLsbD, ← Bool.decide_and]
  exact decide_eq_decide.mpr ⟨And.right, fun hi => ⟨hi.trans_le hW, hi⟩⟩

/-- Settles O44: up to width 32 the number `2^W - 1` fits the word. -/
theorem maskHasTheLowBitsSet : Obligations.MaskHasTheLowBitsSet := by
  refine ⟨fun W _ hW => ⟨mask_toNat hW, mask_getLsbD_of_le hW⟩, ?_, ?_, ?_, ?_, ?_⟩
  all_goals decide

/-! ## `START` -/

theorem gives_start_of_width {s : State} (hwidth : s.regs.width ≠ 0) :
    Gives (.start 0) s s.regs.started ⟨.ok, 0⟩ := by
  rw [gives_iff, exec, execStart, Operand.fitsA0_zero, if_neg (by simp), if_neg hwidth, respond_setRegs_eq]

theorem gives_start_of_no_width {s : State} (hwidth : s.regs.width = 0) :
    Gives (.start 0) s s.regs ⟨.errCfg, 0⟩ := by
  rw [gives_iff, exec, execStart, Operand.fitsA0_zero, if_neg (by simp), if_pos hwidth, fail_eq]

/-- The example of 41_compute.md R79: no bit of `INIT` stands below the width. -/
theorem gives_start_example {s : State} (hwidth : s.regs.width = 8) (hinit : s.regs.init = 0xFFFFFF00) :
    Gives (.start 0) s { s.regs with acc := 0, active := true, rvalid := false } ⟨.ok, 0⟩ := by
  have hacc : s.regs.init &&& Crc.mask s.regs.width.toNat = 0 := by rw [hwidth, hinit]; decide
  have h := gives_start_of_width (s := s) (by rw [hwidth]; decide)
  rwa [Regs.started_eq, hacc] at h

/-- Settles O12: `WIDTH` is the one condition beyond the operand; `ACTIVE` is not looked at. -/
theorem startBeginsAComputation : Obligations.StartBeginsAComputation :=
  ⟨fun _ hwidth => gives_start_of_width hwidth, fun _ hwidth => gives_start_of_no_width hwidth,
    fun s arg hbad => gives_errArg_of_operandError (.start arg) hbad s,
    fun _ hwidth hinit => gives_start_example hwidth hinit, decode_encode (.start 0)⟩

/-! ## `PUSHB` -/

theorem fitsAB_setWidth (d : Byte) : Operand.fitsAB (d.setWidth 32) = true := by
  rw [Operand.fitsAB_iff, BitVec.toNat_setWidth]
  omega

theorem gives_pushb_of_active {s : State} (d : Byte) (hact : s.regs.active = true) :
    Gives (.pushb (d.setWidth 32)) s (s.regs.absorbed d) ⟨.ok, 0⟩ := by
  rw [gives_iff, exec, execPushb, fitsAB_setWidth, hact, if_neg (by simp), if_neg (by simp), Operand.byte_setWidth,
    respond_setRegs_eq]

theorem gives_pushb_of_not_active {s : State} {arg : Word} (hbyte : arg.toNat ≤ 255) (hact : s.regs.active = false) :
    Gives (.pushb arg) s s.regs ⟨.errSeq, 0⟩ := by
  rw [gives_iff, exec, execPushb, (Operand.fitsAB_iff arg).mpr hbyte, if_neg (by simp), if_pos hact, fail_eq]

/-- The example of 41_compute.md R80. -/
theorem gives_pushb_example {s : State} (hact : s.regs.active = true) (hwidth : s.regs.width = 16)
    (hpoly : s.regs.poly = 0x1021) (hrefin : s.regs.refin = false) (hacc : s.regs.acc = 0xFFFF) :
    Gives (.pushb 0x31) s { s.regs with acc := 0xC782 } ⟨.ok, 0⟩ := by
  have hnew : Crc.absorbByte s.regs.width.toNat s.regs.poly s.regs.refin s.regs.acc 0x31 = 0xC782 := by
    rw [hwidth, hpoly, hrefin, hacc]
    decide
  have h := gives_pushb_of_active 0x31 hact
  rwa [Regs.absorbed_eq, hnew] at h

theorem decode_pushb_word (d : Byte) :
    decode (BitVec.ofNat 40 (0x3100000000 + d.toNat)) = .instr (.pushb (d.setWidth 32)) := by
  have harg : (d.setWidth 32).toNat = d.toNat := BitVec.toNat_setWidth_of_le (by decide)
  have hword := decode_ofNat_opcode_add_arg (.pushb (d.setWidth 32)) (op := 0x3100000000) (by simp [Instr.opcode])
  rwa [Instr.arg, harg] at hword

/-- Settles O13: a zero-extended byte fits the form `AB` and is the byte absorbed, and both failures come before
`ACC` is written. -/
theorem pushbAbsorbsOneByte : Obligations.PushbAbsorbsOneByte :=
  ⟨fun _ d hact => gives_pushb_of_active d hact,
    fun s arg hbad => gives_errArg_of_operandError (.pushb arg) hbad s,
    fun _ _ hbyte hact => gives_pushb_of_not_active hbyte hact,
    fun _ hact hwidth hpoly hrefin hacc => gives_pushb_example hact hwidth hpoly hrefin hacc, decode_pushb_word⟩

/-! ## `FINISH` -/

theorem gives_finish_of_active {s : State} (hact : s.regs.active = true) :
    Gives (.finish 0) s s.regs.finished ⟨.ok, s.regs.finalValue⟩ := by
  rw [gives_iff, exec, execFinish, Operand.fitsA0_zero, hact, if_neg (by simp), if_neg (by simp), respond_setRegs_eq]

theorem gives_finish_of_not_active {s : State} (hact : s.regs.active = false) :
    Gives (.finish 0) s s.regs ⟨.errSeq, 0⟩ := by
  rw [gives_iff, exec, execFinish, Operand.fitsA0_zero, if_neg (by simp), if_pos hact, fail_eq]

/-- The returned value and `RESULT` are clear from the width up (41_compute.md R81). -/
theorem finalize_clearAbove (W : Nat) (X a : Word) (rout : Bool) : ClearAbove W (Crc.finalize W X rout a) :=
  fun i hi => Crc.finalize_getLsbD_clear W X a rout i hi

/-- The examples of 41_compute.md R81, which differ in `XOROUT` alone. -/
theorem gives_finish_example {s : State} {x v : Word} (hact : s.regs.active = true) (hwidth : s.regs.width = 16)
    (hrefout : s.regs.refout = false) (hacc : s.regs.acc = 0x29B1) (hxorout : s.regs.xorout = x)
    (hv : Crc.finalize 16 x false 0x29B1 = v) :
    Gives (.finish 0) s { s.regs with result := v, rvalid := true, active := false } ⟨.ok, v⟩ := by
  have hfinal : s.regs.finalValue = v := by
    rw [Regs.finalValue, hwidth, hrefout, hacc, hxorout]
    exact hv
  have h := gives_finish_of_active hact
  rwa [Regs.finished_eq, hfinal] at h

/-- Settles O14: `ACTIVE` is the one condition beyond the operand, and the mask that ends `finalize` clears the bits from
the width up. -/
theorem finishReturnsTheChecksum : Obligations.FinishReturnsTheChecksum := by
  refine ⟨fun s hact => ⟨gives_finish_of_active hact, finalize_clearAbove _ _ _ _⟩,
    fun s hact => gives_finish_of_not_active hact,
    fun s arg hbad => gives_errArg_of_operandError (.finish arg) hbad s,
    fun s hact hwidth hrefout hacc => ⟨fun hxorout => ?_, fun hxorout => ?_⟩, decode_encode (.finish 0)⟩
  · exact gives_finish_example hact hwidth hrefout hacc hxorout (by decide)
  · exact gives_finish_example hact hwidth hrefout hacc hxorout (by decide)

/-! ## `GETRES` -/

theorem gives_getres_of_rvalid {s : State} (hvalid : s.regs.rvalid = true) :
    Gives (.getres 0) s s.regs ⟨.ok, s.regs.result⟩ := by
  rw [gives_iff, exec, execGetres, Operand.fitsA0_zero, hvalid, if_neg (by simp), if_neg (by simp), respond_eq,
    Regs.read]

theorem gives_getres_of_not_rvalid {s : State} (hvalid : s.regs.rvalid = false) :
    Gives (.getres 0) s s.regs ⟨.errSeq, 0⟩ := by
  rw [gives_iff, exec, execGetres, Operand.fitsA0_zero, if_neg (by simp), if_pos hvalid, fail_eq]

/-- Settles O15: `RVALID` is the one condition beyond the operand, and no branch writes a register. -/
theorem getresReadsAValidResult : Obligations.GetresReadsAValidResult :=
  ⟨fun _ hvalid => gives_getres_of_rvalid hvalid, fun _ hvalid => gives_getres_of_not_rvalid hvalid,
    fun s arg hbad => gives_errArg_of_operandError (.getres arg) hbad s, decode_encode (.getres 0)⟩

end Sys2Proof.Proofs
end

section
/-! PROOFS. The system commands (42_system.md): `NOP`, `SRST`, `GETS` one by one (R86 to R88). -/

namespace Sys2Proof.Proofs

open Sys2Proof.Machine Sys2Proof.Claims

/-! ## `NOP` -/

theorem gives_nop_zero (s : State) : Gives (.nop 0) s s.regs ⟨.ok, 0⟩ := by
  rw [gives_iff, exec, execNop, Operand.fitsA0_zero, if_neg (by simp), respond_eq]

/-- Settles O4: the operand is all `NOP` looks at, and neither branch writes a register. -/
theorem nopDoesNothing : Obligations.NopDoesNothing :=
  ⟨gives_nop_zero, fun s arg hbad => gives_errArg_of_operandError (.nop arg) hbad s, decode_encode (.nop 0)⟩

/-! ## `SRST` -/

/-- A legal operand of `SETW` never holds the width 0 (40_config.md R57). -/
theorem operandWidth_ne_zero_of_wf {arg : Word} (hw : (Instr.setw arg).wf = true) : Operand.width arg ≠ 0 := by
  obtain ⟨hlo, hhi⟩ : 1 ≤ arg.toNat ∧ arg.toNat ≤ 32 := (Operand.fitsAW_iff arg).mp ((wf_aw arg).symm.trans hw)
  intro hzero
  have hmod : arg.toNat % 64 = 0 := (Operand.width_toNat arg).symm.trans (congrArg BitVec.toNat hzero)
  omega

/-- The only command that clears `WIDTH` (42_system.md R87): `SETW` writes a legal width, and the others keep
`WIDTH`. -/
theorem eq_srst_of_exec_clears_width {i : Instr} {s t : State} (h : exec i s = .next t) (hwidth : s.regs.width ≠ 0)
    (hzero : t.regs.width = 0) : i = .srst 0 := by
  cases exec_ends i s with
  | srst hi _ => exact hi
  | set n arg hw _ hi e =>
    rw [regs_of_exec h e] at hzero
    rcases hi with ⟨rfl, rfl⟩ | ⟨rfl, _⟩ | ⟨rfl, _⟩ | ⟨rfl, _⟩ | ⟨rfl, _⟩
    · exact absurd hzero (operandWidth_ne_zero_of_wf hw)
    all_goals exact absurd hzero hwidth
  | errArg _ e | errBusy _ _ _ e | errSeq _ _ e | errCfg _ _ e | nop _ e | get _ _ e | start _ _ e
  | pushb _ _ _ _ e | finish _ _ e =>
    rw [regs_of_exec h e] at hzero
    exact absurd hzero hwidth

/-- Settles O5: the ten fields of `Regs.reset` are 0, and of the two writes to `WIDTH` that of `SETW` is never 0. -/
theorem srstResetsEveryField : Obligations.SrstResetsEveryField :=
  ⟨exec_srst_zero, exec_srst_zero, fun s arg hbad => gives_errArg_of_operandError (.srst arg) hbad s,
    fun _ _ _ h hwidth hzero => eq_srst_of_exec_clears_width h hwidth hzero, decode_encode (.srst 0)⟩

/-! ## `GETS` -/

theorem read_status_eq_ofNat (r : Regs) : r.read .status = BitVec.ofNat 32 (2 * r.rvalid.toNat + r.active.toNat) :=
  pairWord_eq r.rvalid r.active

theorem gives_gets_zero (s : State) :
    Gives (.gets 0) s s.regs ⟨.ok, BitVec.ofNat 32 (2 * s.regs.rvalid.toNat + s.regs.active.toNat)⟩ := by
  rw [← read_status_eq_ofNat]
  exact getReg_zero .status s

/-- The value 3 would need both flags (10_state.md R23 (d)). -/
theorem status_le_two {r : Regs} (hinv : r.Inv) : 2 * r.rvalid.toNat + r.active.toNat ≤ 2 := by
  cases hact : r.active with
  | false => cases r.rvalid <;> decide
  | true =>
    have hvalid : r.rvalid = false := Bool.eq_false_iff.mpr fun hvalid => hinv.not_both ⟨hact, hvalid⟩
    rw [hvalid]
    decide

/-- Settles O6: `STATUS` is `RVALID` above `ACTIVE`, and the invariant shuts out both at once. -/
theorem getsReturnsTheFlags : Obligations.GetsReturnsTheFlags :=
  ⟨gives_gets_zero, fun _ hinv => status_le_two hinv,
    fun s arg hbad => gives_errArg_of_operandError (.gets arg) hbad s, decode_encode (.gets 0)⟩

end Sys2Proof.Proofs
end

section
/-! PROOFS. The failures (60_exceptions.md): which one a command reports (R95 to R98), and that a failed command writes
nothing (R99). -/

namespace Sys2Proof.Proofs

open Sys2Proof.Machine Sys2Proof.Claims

/-! ## The state conditions -/

/-- The cause of `ERR_SEQ` (60_exceptions.md R96). -/
theorem gives_errSeq_of_sequenceError {i : Instr} {s : State} (harg : ¬operandError i)
    (hseq : sequenceError s.regs i) : Gives i s s.regs ⟨.errSeq, 0⟩ := by
  cases i with
  | pushb arg => exact gives_pushb_of_not_active (not_lt.mp harg) hseq
  | finish arg =>
    obtain rfl : arg = 0 := not_not.mp harg
    exact gives_finish_of_not_active hseq
  | getres arg =>
    obtain rfl : arg = 0 := not_not.mp harg
    exact gives_getres_of_not_rvalid hseq
  | nop _ | srst _ | setw _ | setp _ | seti _ | setx _ | setr _ | getw _ | getp _ | geti _ | getx _ | getr _ | gets _
  | start _ => exact hseq.elim

/-- The cause of `ERR_CFG` (60_exceptions.md R97). -/
theorem gives_errCfg_of_configError {i : Instr} {s : State} (harg : ¬operandError i) (hcfg : configError s.regs i) :
    Gives i s s.regs ⟨.errCfg, 0⟩ := by
  cases i with
  | start arg =>
    obtain rfl : arg = 0 := not_not.mp harg
    exact gives_start_of_no_width hcfg
  | nop _ | srst _ | setw _ | setp _ | seti _ | setx _ | setr _ | getw _ | getp _ | geti _ | getx _ | getr _ | gets _
  | getres _ | pushb _ | finish _ => exact hcfg.elim

/-- A command fails only where one of the causes is present (60_exceptions.md R98). -/
theorem exec_ok_of_no_cause {i : Instr} {s : State} (harg : ¬operandError i)
    (hbusy : ¬(isSet i ∧ s.regs.active = true)) (hseq : ¬sequenceError s.regs i) (hcfg : ¬configError s.regs i) :
    ∃ r d, exec i s = .next (s.answered r ⟨.ok, d⟩) := by
  cases exec_ends i s with
  | errArg hw _ => exact absurd ((operandError_iff_wf_false i).mpr hw) harg
  | errBusy _ hact hset _ => exact absurd ⟨(isSet_iff i).mpr hset, hact⟩ hbusy
  | errSeq _ hi _ => rcases hi with ⟨rfl | ⟨_, rfl⟩, hflag⟩ | ⟨rfl, hflag⟩ <;> exact absurd hflag hseq
  | errCfg hi hwidth _ => subst hi; exact absurd hwidth hcfg
  | nop _ e | srst _ e | set _ _ _ _ _ e | get _ _ e | start _ _ e | pushb _ _ _ _ e | finish _ _ e =>
    exact ⟨_, _, e⟩

theorem runWord_of_decode_reservedOpcode {w : CmdWord} {op : BitVec 8} (h : decode w = .reservedOpcode op) (s : State) :
    runWord w s = .next (s.answered s.regs ⟨.errOp, 0⟩) := by
  rw [runWord, h, execReserved, fail_eq]

/-- Settles O18: a command has one response, so under each cause it is the response of that failure, and without a cause
the command succeeds. -/
theorem failuresAreReportedInPriorityOrder : Obligations.FailuresAreReportedInPriorityOrder := by
  intro s w rest hoffer
  rw [step_command_of_no_offer hoffer]
  cases hdec : decode w with
  | reservedOpcode op =>
    exact ⟨_, _, runWord_of_decode_reservedOpcode hdec _, rfl, fun _ _ => rfl, nofun, nofun, nofun, nofun, nofun⟩
  | instr i =>
    rw [runWord_of_decode hdec]
    obtain ⟨r, a, hshape⟩ := exec_shape i s.regs
    have e := hshape ⟨s.regs, s.port.accepting, rest⟩ rfl
    refine ⟨_, a, e, rfl, nofun, ?_, ?_, ?_, ?_, ?_⟩ <;> rintro _ ⟨⟩ harg
    · exact response_of_exec e (gives_errArg_of_operandError i harg _)
    · exact fun hset hact => response_of_exec e (gives_errBusy_of_isSet hset harg hact)
    · exact fun hseq => response_of_exec e (gives_errSeq_of_sequenceError harg hseq)
    · exact fun hcfg => response_of_exec e (gives_errCfg_of_configError harg hcfg)
    · intro hbusy hseq hcfg
      obtain ⟨_, _, hok⟩ := exec_ok_of_no_cause (s := ⟨s.regs, s.port.accepting, rest⟩) harg hbusy hseq hcfg
      rw [response_of_exec e hok]

/-! ## A failed command writes nothing -/

theorem exec_ok_or_writes_nothing (i : Instr) (s : State) :
    (∃ r d, exec i s = .next (s.answered r ⟨.ok, d⟩)) ∨ ∃ st, exec i s = .next (s.answered s.regs ⟨st, 0⟩) := by
  cases exec_ends i s with
  | errArg _ e | errBusy _ _ _ e | errSeq _ _ e | errCfg _ _ e => exact .inr ⟨_, e⟩
  | nop _ e | srst _ e | set _ _ _ _ _ e | get _ _ e | start _ _ e | pushb _ _ _ _ e | finish _ _ e =>
    exact .inl ⟨_, _, e⟩

/-- The same of an accepted word, which may hold a reserved opcode (60_exceptions.md R99). -/
theorem runWord_ok_or_writes_nothing (w : CmdWord) (s : State) :
    (∃ r d, runWord w s = .next (s.answered r ⟨.ok, d⟩)) ∨ ∃ st, runWord w s = .next (s.answered s.regs ⟨st, 0⟩) := by
  cases hdec : decode w with
  | reservedOpcode op => exact .inr ⟨_, runWord_of_decode_reservedOpcode hdec s⟩
  | instr i =>
    rw [runWord_of_decode hdec]
    exact exec_ok_or_writes_nothing i s

/-- A word handed over that gives a next state has been executed: the handshake was not broken. -/
theorem runWord_of_step_command {s t : State} {w : CmdWord} {rest : List HostEvent}
    (h : step { s with inbox := .command w :: rest } = .next t) :
    runWord w ⟨s.regs, s.port.accepting, rest⟩ = .next t := by
  cases hheld : s.port.heldBy (some w) with
  | true => rwa [step_command s.regs s.port w rest hheld] at h
  | false =>
    rw [step_command_broken s.regs s.port w rest hheld] at h
    exact nomatch h

/-- Settles O19: every response with a status other than `OK` has data 0 and leaves the registers, and a word is
executed with the registers it was handed over in. -/
theorem failedCommandsWriteNothing : Obligations.FailedCommandsWriteNothing := by
  intro s t w rest a hstep hrsp hfail
  have hrun := runWord_of_step_command hstep
  rcases runWord_ok_or_writes_nothing w ⟨s.regs, s.port.accepting, rest⟩ with ⟨r, d, e⟩ | ⟨st, e⟩
  · cases e.symm.trans hrun
    cases hrsp
    exact absurd rfl hfail
  · cases e.symm.trans hrun
    cases hrsp
    exact ⟨rfl, rfl⟩

end Sys2Proof.Proofs
end

section
/-! PROOFS. Encoding (30_encoding.md): decoding and encoding of command words (R45, R48), the assembler (R53), response
words (R46, R92), and the register indices (10_state.md R9). -/

namespace Sys2Proof.Proofs

open Sys2Proof.Machine Sys2Proof.Claims

/-! ## Command words -/

/-- Settles O24: the opcode field of the word finds the command's own row, and the row's command takes the operand
field. -/
theorem decodeOfEncodeIsTheCommand : Obligations.DecodeOfEncodeIsTheCommand := decode_encode

/-- A row of the opcode map makes commands of its own opcode, with the operand it is given (30_encoding.md R48). -/
theorem opcode_arg_of_row {r : Row} (h : r ∈ opcodeTable) (arg : Word) :
    (r.make arg).opcode = r.opcode ∧ (r.make arg).arg = arg := by
  have hall : ∀ r ∈ opcodeTable, (r.make arg).opcode = r.opcode ∧ (r.make arg).arg = arg := by
    simp [opcodeTable, Instr.opcode, Instr.arg]
  exact hall r h

/-- A word that decodes to a command is that command's word: its row gives the two fields back. -/
theorem encode_of_decode {w : CmdWord} {i : Instr} (h : decode w = .instr i) : encode i = w := by
  cases hrow : opcodeTable.find? (fun r => r.opcode == opField w) with
  | none => rw [decode_of_no_row w hrow] at h; cases h
  | some r =>
    rw [decode_of_row w r hrow] at h
    cases h
    have hop : r.opcode = opField w := by simpa using List.find?_some hrow
    obtain ⟨hopcode, harg⟩ := opcode_arg_of_row (List.mem_of_find?_eq_some hrow) (argField w)
    rw [encode, hopcode, harg, hop, opField_append_argField]

/-- Settles O25: decoding loses nothing of the word, and the assembler's one condition is the operand's form. -/
theorem encodeOfDecodeIsTheWord : Obligations.EncodeOfDecodeIsTheWord := by
  intro w i h
  have hw := encode_of_decode h
  exact ⟨hw, fun hwf => by rw [assemble, if_pos hwf, hw], fun hwf => by rw [assemble, if_neg (by simp [hwf])]⟩

/-- Settles O26: each word and each line is closed, so the decoder and the assembler run on it. -/
theorem sampleWordsDecode : Obligations.SampleWordsDecode := by
  refine ⟨?_, ?_, ?_, ?_, ?_, ?_, ?_, ?_, ?_⟩
  all_goals decide

/-! ## Response words -/

theorem status_code_le (st : Status) : st.code.toNat ≤ 5 := by cases st <;> decide

@[simp] theorem ofCode_code (st : Status) : Status.ofCode st.code = some st := by cases st <;> rfl

/-- A code names at most one status, the one it is the code of (60_exceptions.md R92). -/
theorem code_of_ofCode {c : BitVec 4} {st : Status} (h : Status.ofCode c = some st) : st.code = c := by
  have hall : ∀ c : BitVec 4, ∀ st ∈ Status.ofCode c, st.code = c := by decide
  exact hall c st h

theorem ofCode_of_six_le {c : BitVec 4} (h : 6 ≤ c.toNat) : Status.ofCode c = none := by
  rw [Status.ofCode]
  exact List.getElem?_eq_none h

theorem encode_toNat (a : Response) : a.encode.toNat = a.status.code.toNat * 2 ^ 32 + a.data.toNat := by
  have happend : a.encode.toNat = a.status.code.toNat <<< 32 ||| a.data.toNat := BitVec.toNat_append ..
  rw [happend, Nat.shiftLeft_eq, Nat.mul_comm, ← Nat.two_pow_add_eq_or_of_lt a.data.isLt]

theorem statusField_toNat (v : RspWord) : (v.extractLsb' 32 4).toNat = v.toNat / 2 ^ 32 := by
  have hlt := v.isLt
  rw [BitVec.extractLsb'_toNat, Nat.shiftRight_eq_div_pow]
  omega

theorem dataField_toNat (v : RspWord) : (v.extractLsb' 0 32).toNat = v.toNat % 2 ^ 32 := by
  rw [BitVec.extractLsb'_toNat, Nat.shiftRight_zero]

/-- A host reads back what was sent (30_encoding.md R46). -/
theorem decode_encode_response (a : Response) : Response.decode a.encode = some a := by
  have hstatus : a.encode.extractLsb' 32 4 = a.status.code := BitVec.extractLsb'_append_eq_left
  have hfield : a.encode.extractLsb' 0 32 = a.data := BitVec.extractLsb'_append_eq_right
  rw [Response.decode, hstatus, hfield, ofCode_code, Option.map_some]

/-- A word read as a response is that response's word. -/
theorem encode_of_decode_response {v : RspWord} {a : Response} (h : Response.decode v = some a) : a.encode = v := by
  obtain ⟨st, hst, rfl⟩ := Option.map_eq_some_iff.mp h
  refine BitVec.eq_of_toNat_eq ?_
  rw [encode_toNat, code_of_ofCode hst, statusField_toNat, dataField_toNat]
  omega

/-- Settles O22: the two fields of a response word are its quotient and remainder by 2^32, and the six statuses have the
codes 0 to 5. -/
theorem responseWordsRoundTrip : Obligations.ResponseWordsRoundTrip := by
  refine ⟨fun a => ⟨encode_toNat a, status_code_le a.status, decode_encode_response a⟩,
    fun v a h => encode_of_decode_response h, fun v h => ?_, rfl, rfl, rfl, rfl, rfl, rfl⟩
  rw [Response.decode, ofCode_of_six_le (by rw [statusField_toNat]; exact h), Option.map_none]

/-! ## Register indices -/

/-- A `GET` that succeeds returns the register it is for (40_config.md R62). -/
theorem data_of_getReg_ok {n : RegName} {arg : Word} {s t : State} {a : Response} (h : getReg n arg s = .next t)
    (ha : t.port.rsp = some a) (hok : a.status = .ok) : a.data = s.regs.read n := by
  rcases getReg_cases n arg s with ⟨_, e⟩ | ⟨_, e⟩ <;> cases e.symm.trans h <;> cases ha
  · cases hok
  · rfl

theorem data_of_getres_ok {arg : Word} {s t : State} {a : Response} (h : exec (.getres arg) s = .next t)
    (ha : t.port.rsp = some a) (hok : a.status = .ok) : a.data = s.regs.result := by
  obtain ⟨t', b, e, hb, hdata, _⟩ := responseDataPerCommand (.getres arg) s
  cases e.symm.trans h
  cases hb.symm.trans ha
  exact hdata hok

/-- A `SET` that succeeds writes the register it is for with its operand (40_config.md R56). -/
theorem regs_of_setParam_ok {n : RegName} {fits : Bool} {arg : Word} {s t : State} {a : Response}
    (h : setParam n fits arg s = .next t) (ha : t.port.rsp = some a) (hok : a.status = .ok) :
    t.regs = s.regs.write arg n := by
  rcases setParam_cases n fits arg s with ⟨_, e⟩ | ⟨_, _, e⟩ | ⟨_, _, e⟩ <;>
    cases e.symm.trans h <;> cases ha
  · cases hok
  · cases hok
  · rfl

/-- Settles O27: each `SET` and each `GET` goes through the register whose index its opcode ends in. -/
theorem opcodeLowNibbleIsTheRegisterIndex : Obligations.OpcodeLowNibbleIsTheRegisterIndex := by
  refine ⟨fun i hget => ?_, fun i hset => ?_, fun ix hix => ?_⟩
  · cases i with
    | getw arg => exact ⟨.width, by simp [Instr.opcode, RegName.ofIndex],
        fun _ _ _ h ha hok => data_of_getReg_ok h ha hok⟩
    | getp arg => exact ⟨.poly, by simp [Instr.opcode, RegName.ofIndex],
        fun _ _ _ h ha hok => data_of_getReg_ok h ha hok⟩
    | geti arg => exact ⟨.init, by simp [Instr.opcode, RegName.ofIndex],
        fun _ _ _ h ha hok => data_of_getReg_ok h ha hok⟩
    | getx arg => exact ⟨.xorout, by simp [Instr.opcode, RegName.ofIndex],
        fun _ _ _ h ha hok => data_of_getReg_ok h ha hok⟩
    | getr arg => exact ⟨.refl, by simp [Instr.opcode, RegName.ofIndex],
        fun _ _ _ h ha hok => data_of_getReg_ok h ha hok⟩
    | gets arg => exact ⟨.status, by simp [Instr.opcode, RegName.ofIndex],
        fun _ _ _ h ha hok => data_of_getReg_ok h ha hok⟩
    | getres arg => exact ⟨.result, by simp [Instr.opcode, RegName.ofIndex],
        fun _ _ _ h ha hok => data_of_getres_ok h ha hok⟩
    | nop _ | srst _ | setw _ | setp _ | seti _ | setx _ | setr _ | start _ | pushb _ | finish _ =>
      simp [Instr.opcode] at hget
  · cases i with
    | setw arg => exact ⟨by simp [Instr.opcode], .width, by simp [Instr.opcode, RegName.ofIndex],
        fun _ _ _ h ha hok => regs_of_setParam_ok h ha hok⟩
    | setp arg => exact ⟨by simp [Instr.opcode], .poly, by simp [Instr.opcode, RegName.ofIndex],
        fun _ _ _ h ha hok => regs_of_setParam_ok (fits := Operand.fitsA32 arg) h ha hok⟩
    | seti arg => exact ⟨by simp [Instr.opcode], .init, by simp [Instr.opcode, RegName.ofIndex],
        fun _ _ _ h ha hok => regs_of_setParam_ok (fits := Operand.fitsA32 arg) h ha hok⟩
    | setx arg => exact ⟨by simp [Instr.opcode], .xorout, by simp [Instr.opcode, RegName.ofIndex],
        fun _ _ _ h ha hok => regs_of_setParam_ok (fits := Operand.fitsA32 arg) h ha hok⟩
    | setr arg => exact ⟨by simp [Instr.opcode], .refl, by simp [Instr.opcode, RegName.ofIndex],
        fun _ _ _ h ha hok => regs_of_setParam_ok h ha hok⟩
    | nop _ | srst _ | getw _ | getp _ | geti _ | getx _ | getr _ | gets _ | getres _ | start _ | pushb _
    | finish _ => exact hset.elim
  · rw [RegName.ofIndex]
    exact List.getElem?_eq_none hix

end Sys2Proof.Proofs
end

section
/-! PROOFS. What an execution leaves: the frame of the commands (00_scope.md section 5.3), a `GET` after a `SET`
(40_config.md R62), repeated commands (20_memory.md R40), and the phases (10_state.md R22). -/

namespace Sys2Proof.Proofs

open Sys2Proof.Machine Sys2Proof.Claims

/-! ## The frame -/

theorem mayChange_refl (r : Regs) (i : Instr) : mayChange r r i := by
  cases i with
  | srst _ => trivial
  | nop _ | setw _ | setp _ | seti _ | setx _ | setr _ | getw _ | getp _ | geti _ | getx _ | getr _ | gets _
  | getres _ | start _ | pushb _ | finish _ => rfl

/-- Settles O23: the registers an execution leaves are those it had, or the update of its own success. -/
theorem commandsChangeOnlyTheirRegisters : Obligations.CommandsChangeOnlyTheirRegisters := by
  intro i s t h
  cases exec_ends i s with
  | errArg _ e | errBusy _ _ _ e | errSeq _ _ e | errCfg _ _ e | nop _ e | get _ _ e =>
    cases e.symm.trans h
    exact ⟨mayChange_refl s.regs i, rfl, rfl⟩
  | srst hi e =>
    subst hi
    cases e.symm.trans h
    exact ⟨trivial, rfl, rfl⟩
  | start hi _ e | pushb _ hi _ _ e | finish hi _ e =>
    subst hi
    cases e.symm.trans h
    exact ⟨rfl, rfl, rfl⟩
  | set n arg _ _ hi e =>
    cases e.symm.trans h
    rcases hi with ⟨rfl, rfl⟩ | ⟨rfl, rfl⟩ | ⟨rfl, rfl⟩ | ⟨rfl, rfl⟩ | ⟨rfl, rfl⟩ <;> exact ⟨rfl, rfl, rfl⟩

/-! ## A `GET` after a `SET` -/

/-- The two flags as a number are the low two bits of the operand (40_config.md R61). -/
theorem two_mul_refout_add_refin (arg : Word) :
    2 * (Operand.refout arg).toNat + (Operand.refin arg).toNat = arg.toNat % 4 := by
  have hlo : (Operand.refin arg).toNat = arg.toNat / 2 ^ 0 % 2 := Nat.toNat_testBit ..
  have hhi : (Operand.refout arg).toNat = arg.toNat / 2 ^ 1 % 2 := Nat.toNat_testBit ..
  omega

theorem gives_getw_after_setw {s t : State} {arg : Word} {a : Response} (h : exec (.setw arg) s = .next t)
    (ha : t.port.rsp = some a) (hok : a.status = .ok) :
    Gives (.getw 0) t t.regs ⟨.ok, BitVec.ofNat 32 (arg.toNat % 64)⟩ := by
  have hwidth : t.regs.width = Operand.width arg := by rw [regs_of_setParam_ok h ha hok]; rfl
  have hget := gives_getw_zero t
  rwa [hwidth, Operand.width_toNat] at hget

theorem gives_getr_after_setr {s t : State} {arg : Word} {a : Response} (h : exec (.setr arg) s = .next t)
    (ha : t.port.rsp = some a) (hok : a.status = .ok) :
    Gives (.getr 0) t t.regs ⟨.ok, BitVec.ofNat 32 (arg.toNat % 4)⟩ := by
  have hregs := regs_of_setParam_ok h ha hok
  have hrefin : t.regs.refin = Operand.refin arg := by rw [hregs]; rfl
  have hrefout : t.regs.refout = Operand.refout arg := by rw [hregs]; rfl
  have hget := gives_getr_zero t
  rwa [hrefin, hrefout, two_mul_refout_add_refin] at hget

/-- Settles O11: the `GET` reads the register the `SET` wrote with its operand. -/
theorem getAfterSetReturnsTheOperand : Obligations.GetAfterSetReturnsTheOperand := by
  intro s t arg a ha hok
  refine ⟨fun h => gives_getw_after_setw h ha hok, fun h => ?_, fun h => ?_, fun h => ?_,
    fun h => gives_getr_after_setr h ha hok⟩
  · have hpoly : t.regs.poly = arg := by rw [regs_of_setParam_ok (fits := Operand.fitsA32 arg) h ha hok]; rfl
    exact hpoly ▸ getReg_zero .poly t
  · have hinit : t.regs.init = arg := by rw [regs_of_setParam_ok (fits := Operand.fitsA32 arg) h ha hok]; rfl
    exact hinit ▸ getReg_zero .init t
  · have hxorout : t.regs.xorout = arg := by rw [regs_of_setParam_ok (fits := Operand.fitsA32 arg) h ha hok]; rfl
    exact hxorout ▸ getReg_zero .xorout t

/-! ## Repeated commands -/

/-- A second `START` fails as the first did, or writes the registers the first wrote (20_memory.md R40). -/
theorem start_start {s t u : State} (h : exec (.start 0) s = .next t) (h' : exec (.start 0) t = .next u) : u = t := by
  by_cases hwidth : s.regs.width = 0
  · cases (gives_start_of_no_width hwidth).symm.trans h
    cases (gives_start_of_no_width hwidth).symm.trans h'
    rfl
  · cases (gives_start_of_width hwidth).symm.trans h
    cases (gives_start_of_width (s := s.answered s.regs.started ⟨.ok, 0⟩) hwidth).symm.trans h'
    rfl

/-- No computation is in progress after a `FINISH` with its legal operand, whether it succeeded or failed. -/
theorem not_active_after_finish {s t : State} (h : exec (.finish 0) s = .next t) : t.regs.active = false := by
  cases hact : s.regs.active with
  | false => rw [regs_of_exec h (gives_finish_of_not_active hact), hact]
  | true => rw [regs_of_exec h (gives_finish_of_active hact), Regs.finished_eq]

/-- The commands whose high nibble is 2 are the `GET`s, and none of their ends writes a register. -/
theorem get_keeps_regs {i : Instr} {s t : State} (hget : i.opcode.extractLsb' 4 4 = 2) (h : exec i s = .next t) :
    t.regs = s.regs := by
  cases exec_ends i s with
  | errArg _ e | errBusy _ _ _ e | errSeq _ _ e | errCfg _ _ e | nop _ e | get _ _ e => exact regs_of_exec h e
  | srst hi _ | start hi _ _ | pushb _ hi _ _ _ | finish hi _ _ => simp [hi, Instr.opcode] at hget
  | set _ _ _ _ hi _ =>
    rcases hi with ⟨_, rfl⟩ | ⟨_, rfl⟩ | ⟨_, rfl⟩ | ⟨_, rfl⟩ | ⟨_, rfl⟩ <;> simp [Instr.opcode] at hget

/-- An execution that keeps the registers, done again, presents the same response again: the response depends on the
registers alone. -/
theorem exec_again {i : Instr} {s t : State} (h : exec i s = .next t) (hregs : t.regs = s.regs) :
    exec i t = .next t := by
  obtain ⟨r, a, hshape⟩ := exec_shape i s.regs
  have hagain := hshape t hregs
  cases (hshape s rfl).symm.trans h
  exact hagain

/-- Settles O42: `START` writes the same registers again, `FINISH` leaves `ACTIVE = 0`, and a `GET` leaves all
registers. -/
theorem startIsIdempotentFinishIsNot : Obligations.StartIsIdempotentFinishIsNot :=
  ⟨fun _ _ _ h h' => start_start h h', fun _ _ h => gives_finish_of_not_active (not_active_after_finish h),
    fun _ _ _ hget h => ⟨get_keeps_regs hget h, exec_again h (get_keeps_regs hget h)⟩⟩

/-! ## The phases -/

theorem phase_eq_computing_iff (r : Regs) : r.phase = .computing ↔ r.active = true := by
  rw [Regs.phase]
  split
  · simp [*]
  · split <;> simp [*]

theorem phase_eq_unconfigured_iff (r : Regs) : r.phase = .unconfigured ↔ r.active = false ∧ r.width = 0 := by
  rw [Regs.phase]
  split
  · simp [*]
  · split <;> simp_all

theorem phase_eq_idle_iff (r : Regs) : r.phase = .idle ↔ r.active = false ∧ r.width ≠ 0 := by
  rw [Regs.phase]
  split
  · simp [*]
  · split <;> simp_all

/-- A valid result shows in phase IDLE alone (10_state.md R22, R23). -/
theorem phase_idle_of_rvalid {r : Regs} (hinv : r.Inv) (hvalid : r.rvalid = true) : r.phase = .idle :=
  (phase_eq_idle_iff r).mpr
    ⟨Bool.eq_false_iff.mpr fun hact => hinv.not_both ⟨hact, hvalid⟩, hinv.rvalid_width hvalid⟩

/-- Of the writes of the `SET`s only that of `WIDTH` can change the phase. -/
theorem phase_write_of_ne_width (r : Regs) (arg : Word) {n : RegName} (hn : n ≠ .width) :
    (r.write arg n).phase = r.phase := by
  cases n with
  | width => exact absurd rfl hn
  | poly | init | xorout | refl | status | result => rfl

theorem phase_after_setw {r : Regs} {arg : Word} (hwf : (Instr.setw arg).wf = true) (hidle : r.active = false) :
    (r.write arg .width).phase = .idle :=
  (phase_eq_idle_iff _).mpr ⟨hidle, operandWidth_ne_zero_of_wf hwf⟩

/-- A command with a legal operand succeeds where none of the causes of a failure is present. -/
theorem ok_iff_no_cause {i : Instr} {s t : State} {a : Response} (h : exec i s = .next t) (ha : t.port.rsp = some a)
    (harg : ¬operandError i) : a.status = .ok ↔
      ¬(isSet i ∧ s.regs.active = true) ∧ ¬sequenceError s.regs i ∧ ¬configError s.regs i := by
  refine ⟨fun hok => ⟨fun ⟨hset, hact⟩ => ?_, fun hseq => ?_, fun hcfg => ?_⟩, fun ⟨hbusy, hseq, hcfg⟩ => ?_⟩
  · cases (gives_errBusy_of_isSet hset harg hact).symm.trans h
    cases ha
    cases hok
  · cases (gives_errSeq_of_sequenceError harg hseq).symm.trans h
    cases ha
    cases hok
  · cases (gives_errCfg_of_configError harg hcfg).symm.trans h
    cases ha
    cases hok
  · obtain ⟨_, _, e⟩ := exec_ok_of_no_cause harg hbusy hseq hcfg
    cases e.symm.trans h
    cases ha
    rfl

/-- The causes that depend on the state are present in the phases the table leaves out (10_state.md R22). -/
theorem no_cause_iff_succeedsIn {r : Regs} (hinv : r.Inv) (i : Instr) :
    ¬(isSet i ∧ r.active = true) ∧ ¬sequenceError r i ∧ ¬configError r i ↔ succeedsIn r.phase r.rvalid i := by
  cases i with
  | setw _ | setp _ | seti _ | setx _ | setr _ | pushb _ | finish _ =>
    simp [isSet, sequenceError, configError, succeedsIn, phase_eq_computing_iff]
  | getres _ =>
    simpa [isSet, sequenceError, configError, succeedsIn] using fun hvalid => phase_idle_of_rvalid hinv hvalid
  | start _ =>
    have hcfg : r.phase = .unconfigured ↔ r.width = 0 := (phase_eq_unconfigured_iff r).trans
      ⟨And.right, fun hwidth => ⟨Bool.eq_false_iff.mpr fun hact => hinv.active_width hact hwidth, hwidth⟩⟩
    simp [isSet, sequenceError, configError, succeedsIn, hcfg]
  | nop _ | srst _ | getw _ | getp _ | geti _ | getx _ | getr _ | gets _ =>
    simp [isSet, sequenceError, configError, succeedsIn]

/-- The phase after a success (10_state.md R22). -/
theorem phase_of_exec_ok {i : Instr} {s t : State} {a : Response} (hinv : s.regs.Inv) (h : exec i s = .next t)
    (ha : t.port.rsp = some a) (hok : a.status = .ok) : t.regs.phase = phaseAfter s.regs.phase i := by
  cases exec_ends i s with
  | errArg _ e | errBusy _ _ _ e | errSeq _ _ e | errCfg _ _ e =>
    cases e.symm.trans h
    cases ha
    cases hok
  | nop hi e | srst hi e | start hi _ e | pushb _ hi _ _ e => subst hi; rw [regs_of_exec h e]; rfl
  | finish hi hact e =>
    subst hi
    rw [regs_of_exec h e]
    exact (phase_eq_idle_iff _).mpr ⟨rfl, hinv.active_width hact⟩
  | set n arg hw hidle hi e =>
    rw [regs_of_exec h e]
    rcases hi with ⟨rfl, rfl⟩ | ⟨rfl, rfl⟩ | ⟨rfl, rfl⟩ | ⟨rfl, rfl⟩ | ⟨rfl, rfl⟩
    · exact phase_after_setw hw hidle
    all_goals exact phase_write_of_ne_width _ _ nofun
  | get n hi e =>
    rw [regs_of_exec h e]
    rcases hi with ⟨_, rfl⟩ | ⟨_, rfl⟩ | ⟨_, rfl⟩ | ⟨_, rfl⟩ | ⟨_, rfl⟩ | ⟨_, rfl⟩ | ⟨_, rfl, _⟩ <;> rfl

/-- Settles O38: the table's phases are those without a cause of a failure, each success fixes the phase after it, and a
failure leaves the registers. -/
theorem phasesAndTheirTransitions : Obligations.PhasesAndTheirTransitions := by
  intro i s hinv
  obtain ⟨r, a, hshape⟩ := exec_shape i s.regs
  have e := hshape s rfl
  refine ⟨_, a, e, rfl, fun harg => (ok_iff_no_cause e rfl harg).trans (no_cause_iff_succeedsIn hinv i),
    fun hok => phase_of_exec_ok hinv e rfl hok, fun hfail => ?_⟩
  rcases exec_ok_or_writes_nothing i s with ⟨_, _, e'⟩ | ⟨_, e'⟩
  · exact absurd (congrArg Response.status (response_of_exec e e')) hfail
  · rw [regs_of_exec e e']

end Sys2Proof.Proofs
end

section
/-! PROOFS. The channels (30_encoding.md R43, R44, 70_reset_and_hazards.md section 1): what an edge does to them, when a
step is refused (93_implementation_defined.md U12), and the order every step keeps them in. -/

namespace Sys2Proof.Proofs

open Sys2Proof.Machine Sys2Proof.Claims

/-! ## The offer -/

/-- A word on the pins. -/
theorem offered_eq_some_iff (pins : Pins) (w : CmdWord) :
    pins.offered = some w ↔ pins.cmdValid = true ∧ pins.cmd = w := by
  rw [Pins.offered]
  split <;> simp [*]

theorem heldBy_iff (p : Port) (now : Option CmdWord) :
    p.heldBy now = true ↔ p.offer = none ∨ p.offer = now := by
  rw [Port.heldBy]
  cases p.offer with
  | none => simp
  | some w => simpa using eq_comm

theorem heldBy_false_iff (p : Port) (now : Option CmdWord) :
    p.heldBy now = false ↔ ∃ w, p.offer = some w ∧ now ≠ some w := by
  rw [Port.heldBy]
  cases p.offer with
  | none => simp
  | some w => simp

theorem heldBy_of_forall {p : Port} {now : Option CmdWord} (h : ∀ w, p.offer = some w → now = some w) :
    p.heldBy now = true := by
  by_contra hbroken
  obtain ⟨w, hoffer, hne⟩ := (heldBy_false_iff p now).mp (Bool.not_eq_true _ ▸ hbroken)
  exact hne (h w hoffer)

/-! ## An edge at which the engine is not ready -/

theorem busyEdge_of_inReset {p : Port} (pins : Pins) (hreset : p.inReset = true) :
    p.busyEdge pins = { p with inReset := false, offer := pins.offered } := by
  rw [Port.busyEdge, if_pos hreset]

/-- The response is taken (30_encoding.md R44). -/
theorem busyEdge_of_taken {p : Port} {pins : Pins} (hreset : p.inReset = false) (hvalid : p.rspValid = true)
    (hready : pins.rspReady = true) : p.busyEdge pins = { p.take with offer := pins.offered } := by
  have hwait : p.wait = 0 := ((Port.rspValid_iff p).mp hvalid).2
  rw [Port.busyEdge, if_neg (by simp [hreset]), if_neg (by simp [hwait]), if_pos hready]

/-- The response is held: it is not valid yet, and one cycle of its latency passes, or the host is not ready for it. -/
theorem busyEdge_of_held {p : Port} {pins : Pins} (hreset : p.inReset = false) (hrsp : p.rsp ≠ none)
    (hheld : ¬(p.rspValid = true ∧ pins.rspReady = true)) :
    p.busyEdge pins = { p with wait := p.wait - 1, offer := pins.offered } := by
  rw [Port.busyEdge, if_neg (by simp [hreset])]
  by_cases hwait : p.wait = 0
  · have hready : ¬pins.rspReady = true := fun hready => hheld ⟨(Port.rspValid_iff p).mpr ⟨hrsp, hwait⟩, hready⟩
    rw [if_neg (not_not.mpr hwait), if_neg hready, hwait]
  · rw [if_pos hwait]

@[simp] theorem busyEdge_offer (p : Port) (pins : Pins) : (p.busyEdge pins).offer = pins.offered := by
  unfold Port.busyEdge
  split_ifs <;> rfl

@[simp] theorem busyEdge_inReset (p : Port) (pins : Pins) : (p.busyEdge pins).inReset = false := by
  unfold Port.busyEdge
  split_ifs <;> simp_all

/-- No response comes to be. -/
theorem busyEdge_rsp (p : Port) (pins : Pins) : (p.busyEdge pins).rsp = none ∨ (p.busyEdge pins).rsp = p.rsp := by
  unfold Port.busyEdge
  split_ifs
  · exact .inr rfl
  · exact .inr rfl
  · exact .inl rfl
  · exact .inr rfl

theorem cmdReady_false_of_rsp {p : Port} (hrsp : p.rsp ≠ none) : p.cmdReady = false :=
  Bool.eq_false_iff.mpr fun hready => hrsp ((Port.cmdReady_iff p).mp hready).1

/-! ## An accepted word -/

/-- An execution leaves the channels but for the response it presents. -/
theorem answered_of_runWord {w : CmdWord} {s t : State} (h : runWord w s = .next t) :
    ∃ r a, t = s.answered r a := by
  obtain ⟨r, a, hshape⟩ := runWord_shape w s.regs
  cases (hshape s rfl).symm.trans h
  exact ⟨r, a, rfl⟩

/-- A word handed over by a host that holds no other, at the ready channels (20_memory.md R39). -/
theorem step_command_of_held {s : State} {w : CmdWord} (h : s.port.offer = none ∨ s.port.offer = some w)
    (rest : List HostEvent) :
    step { s with inbox := .command w :: rest } = runWord w ⟨s.regs, s.port.accepting, rest⟩ :=
  step_command s.regs s.port w rest ((heldBy_iff s.port (some w)).mpr h)

theorem tableWord_toNat (w : CmdWord) : tableWord 40 w.toNat = some w := by
  have hlt := w.isLt
  rw [tableWord, Nat.mod_eq_of_lt hlt, if_pos hlt, BitVec.ofNat_toNat, BitVec.setWidth_eq]

/-- Settles O28: the step runs the word at the ready channels, and the word decodes to the command; `withFetchWord`
hands over the word with no other on offer. -/
theorem stepExecutesTheDecodedCommand : Obligations.StepExecutesTheDecodedCommand := by
  intro s w i rest hdec
  refine ⟨fun hoffer => (step_command_of_held hoffer rest).trans (runWord_of_decode hdec _), ?_, ?_⟩
  · rw [State.withFetchWord, tableWord_toNat]
    exact (step_command_of_held (s := s.offering w) (.inl rfl) s.inbox).trans (runWord_of_decode hdec _)
  · rw [decodeTableWord, tableWord_toNat]
    simp only [hdec]

/-! ## Reset -/

/-- Settles O3: neither kind of reset looks at the pins or at the state, but for the record of the responses taken. -/
theorem resetOverridesCommands : Obligations.ResetOverridesCommands :=
  fun s rest => ⟨fun pins hrst => step_edge_reset s.regs s.port pins rest hrst, step_reset s.regs s.port rest⟩

/-- Settles O2: the first edge puts the channels in reset with nothing outstanding, the second only ends the reset. -/
theorem oneResetEdgeIsEnough : Obligations.OneResetEdgeIsEnough := by
  intro s on off rest hon hoff
  exact ⟨_, _, step_edge_reset s.regs s.port on _ hon, rfl, rfl, rfl,
    step_edge_busy Regs.reset s.port.resetting off rest hoff rfl rfl, rfl, rfl, rfl, rfl, rfl⟩

/-! ## One edge -/

/-- An edge that accepts a word runs it, with the latency of its opcode still to run (log entries 6, 7). -/
theorem step_edge_accept_of_offer {s : State} {pins : Pins} (hrst : pins.rst = false) (hvalid : pins.cmdValid = true)
    (hready : s.port.cmdReady = true) (hoffer : s.port.offer = none ∨ s.port.offer = some pins.cmd)
    (rest : List HostEvent) :
    step { s with inbox := .edge pins :: rest } =
      runWord pins.cmd
        ⟨s.regs, { s.port with offer := none, wait := Config.latency (opField pins.cmd) - 1 }, rest⟩ :=
  step_edge_accept s.regs s.port pins rest hrst hvalid ((heldBy_iff _ _).mpr hoffer) hready

/-- An edge that accepts nothing is a reset, a busy edge, or one at which a ready engine is offered nothing. -/
theorem edge_without_acceptance {s t : State} {pins : Pins} {rest : List HostEvent}
    (h : step { s with inbox := .edge pins :: rest } = .next t)
    (hnot : ¬(pins.rst = false ∧ pins.cmdValid = true ∧ s.port.cmdReady = true)) :
    (pins.rst = true ∧ t = ⟨Regs.reset, s.port.resetting, rest⟩) ∨
    (s.port.cmdReady = false ∧ t = ⟨s.regs, s.port.busyEdge pins, rest⟩) ∨
    (s.port.cmdReady = true ∧ pins.offered = none ∧ s.port.offer = none ∧ t = ⟨s.regs, s.port, rest⟩) := by
  cases step_ends h with
  | idle hi _ | take _ hi _ | reset _ hi _ | command _ _ hi _ _ => cases hi
  | edgeReset _ _ hi hrst e => cases hi; exact .inl ⟨hrst, e⟩
  | edgeBusy _ _ hi _ _ hready e => cases hi; exact .inr (.inl ⟨hready, e⟩)
  | edgeIdle _ _ hi _ hheld hready hvalid e =>
    cases hi
    have hoffered : pins.offered = none := by rw [Pins.offered, hvalid]; rfl
    exact .inr (.inr ⟨hready, hoffered, or_self_iff.mp ((heldBy_iff _ _).mp hheld), e⟩)
  | edgeAccept _ _ hi hrst _ hready hvalid _ => cases hi; exact absurd ⟨hrst, hvalid, hready⟩ hnot

/-- A busy edge with a response outstanding holds the response, one cycle of latency less to run, or sees it taken. -/
theorem busyEdge_of_outstanding {p : Port} (pins : Pins) (hreset : p.inReset = false) (hrsp : p.rsp ≠ none) :
    (p.busyEdge pins).wait = p.wait - 1 ∧
      (((p.busyEdge pins).rsp = p.rsp ∧ (p.busyEdge pins).taken = p.taken) ∨
        (p.rspValid = true ∧ pins.rspReady = true ∧ (p.busyEdge pins).rsp = none ∧
          (p.busyEdge pins).taken = p.taken ++ p.rsp.toList)) := by
  by_cases htaken : p.rspValid = true ∧ pins.rspReady = true
  · obtain ⟨hvalid, hready⟩ := htaken
    have hwait : p.wait = 0 := ((Port.rspValid_iff p).mp hvalid).2
    rw [busyEdge_of_taken hreset hvalid hready, hwait]
    exact ⟨rfl, .inr ⟨hvalid, hready, rfl, rfl⟩⟩
  · rw [busyEdge_of_held hreset hrsp htaken]
    exact ⟨rfl, .inl ⟨rfl, rfl⟩⟩

/-- Settles O29: of the four kinds of edge one accepts a word; of the other three a reset and a ready engine with
nothing offered leave nothing to say of the channels, and a busy edge holds the response, or sees it taken, or ends the
reset. -/
theorem acceptingEdgeExecutesTheCommand : Obligations.AcceptingEdgeExecutesTheCommand := by
  intro s pins rest
  refine ⟨fun hrst hvalid hready hoffer => ?_, fun hrst hvalid hready hoffer => ?_, fun t h hnot => ?_⟩
  · rw [step_edge_accept_of_offer hrst hvalid hready hoffer]
    exact ⟨fun i hdec => runWord_of_decode hdec _, fun op hdec => runWord_of_decode_reservedOpcode hdec _⟩
  · exact step_edge_idle s.regs s.port pins rest hrst hvalid ((heldBy_iff _ _).mpr (.inl hoffer)) hready
  · rcases edge_without_acceptance h hnot with ⟨hrst, rfl⟩ | ⟨_, rfl⟩ | ⟨hready, hoffered, hoffer, rfl⟩
    · exact ⟨rfl, .inl rfl, by simp [hrst], by simp [hrst], by simp [hrst]⟩
    · exact ⟨rfl, busyEdge_rsp _ _, fun _ => ⟨rfl, busyEdge_inReset _ _, busyEdge_offer _ _⟩,
        fun _ hreset => busyEdge_of_inReset pins hreset, fun _ hreset hrsp => busyEdge_of_outstanding pins hreset hrsp⟩
    · obtain ⟨hnone, hreset⟩ := (Port.cmdReady_iff _).mp hready
      exact ⟨rfl, .inr rfl, fun _ => ⟨rfl, hreset, hoffer.trans hoffered.symm⟩,
        fun _ h => absurd h (Bool.eq_false_iff.mp hreset), fun _ _ h => absurd hnone h⟩

/-- Settles O30: with a response outstanding the edge is a busy one, which has no other effect than to take the response
or to hold it. -/
theorem noCommandIsAcceptedBeforeTheResponseIsTaken : Obligations.NoCommandIsAcceptedBeforeTheResponseIsTaken := by
  intro s t pins a rest hrst hreset hrsp h
  have hsome : s.port.rsp ≠ none := by simp [hrsp]
  have hbusy := cmdReady_false_of_rsp hsome
  have ht : t = ⟨s.regs, s.port.busyEdge pins, rest⟩ := by
    rcases edge_without_acceptance h (by simp [hbusy]) with ⟨hrst', _⟩ | ⟨_, e⟩ | ⟨hready, _⟩
    · simp [hrst] at hrst'
    · exact e
    · simp [hbusy] at hready
  subst ht
  refine ⟨hbusy, rfl, fun ⟨hvalid, hready⟩ => ?_, fun hheld => ?_⟩
  · rw [busyEdge_of_taken hreset hvalid hready]
    exact ⟨rfl, by simp [hrsp], by simp [Port.cmdReady_iff, hreset]⟩
  · rw [busyEdge_of_held hreset hsome hheld]
    exact ⟨hrsp, rfl, cmdReady_false_of_rsp hsome⟩

/-! ## The one refusal -/

/-- The host's next event drops or changes the word on offer (93_implementation_defined.md U12). -/
def BreaksHandshake (s : State) : Prop :=
  ∃ (w : CmdWord) (rest : List HostEvent), s.port.offer = some w ∧
    ((∃ v, s.inbox = .command v :: rest ∧ v ≠ w) ∨
      ∃ p, s.inbox = .edge p :: rest ∧ p.rst = false ∧ ¬(p.cmdValid = true ∧ p.cmd = w))

theorem step_of_breaksHandshake {s : State} (h : BreaksHandshake s) : step s = .refused .hostBrokeHandshake := by
  obtain ⟨r, p, es⟩ := s
  obtain ⟨w, rest, hoffer, ⟨v, hi, hne⟩ | ⟨pins, hi, hrst, hne⟩⟩ := h <;> cases hi
  · exact step_command_broken r p v rest ((heldBy_false_iff p _).mpr ⟨w, hoffer, by simpa using hne⟩)
  · refine step_edge_broken r p pins rest hrst ((heldBy_false_iff p _).mpr ⟨w, hoffer, ?_⟩)
    rwa [ne_eq, offered_eq_some_iff]

/-- An edge of a host that keeps its offer is a reset, a busy edge, an idle one, or an accepting one. -/
theorem step_edge_of_not_breaksHandshake {r : Regs} {p : Port} {pins : Pins} {rest : List HostEvent}
    (h : ¬BreaksHandshake ⟨r, p, .edge pins :: rest⟩) : ∃ t, step ⟨r, p, .edge pins :: rest⟩ = .next t := by
  cases hrst : pins.rst with
  | true => exact ⟨_, step_edge_reset r p pins rest hrst⟩
  | false =>
    have hheld : p.heldBy pins.offered = true := heldBy_of_forall fun v hoffer => by_contra fun hne =>
      h ⟨v, rest, hoffer, .inr ⟨pins, rfl, hrst, by rwa [← offered_eq_some_iff]⟩⟩
    cases hready : p.cmdReady with
    | false => exact ⟨_, step_edge_busy r p pins rest hrst hheld hready⟩
    | true =>
      cases hvalid : pins.cmdValid with
      | false =>
        rw [Pins.offered, hvalid] at hheld
        exact ⟨_, step_edge_idle r p pins rest hrst hvalid hheld hready⟩
      | true =>
        rw [Pins.offered, hvalid] at hheld
        obtain ⟨r', a, hshape⟩ := runWord_shape pins.cmd r
        exact ⟨_, (step_edge_accept r p pins rest hrst hvalid hheld hready).trans (hshape _ rfl)⟩

theorem step_of_not_breaksHandshake {s : State} (h : ¬BreaksHandshake s) : ∃ t, step s = .next t := by
  obtain ⟨r, p, es⟩ := s
  cases es with
  | nil => exact ⟨_, step_nil r p⟩
  | cons e rest =>
    cases e with
    | take => exact ⟨_, step_take r p rest⟩
    | reset => exact ⟨_, step_reset r p rest⟩
    | command w =>
      have hheld : p.heldBy (some w) = true := heldBy_of_forall fun v hoffer => by_contra fun hne =>
        h ⟨v, rest, hoffer, .inl ⟨w, rfl, by simpa using hne⟩⟩
      obtain ⟨r', a, hshape⟩ := runWord_shape w r
      exact ⟨_, (step_command r p w rest hheld).trans (hshape _ rfl)⟩
    | edge pins => exact step_edge_of_not_breaksHandshake h

/-- Settles O34: a step is refused where the host breaks the handshake, and every other step gives a next state. -/
theorem stepStopsOnlyOnABrokenHandshake : Obligations.StepStopsOnlyOnABrokenHandshake := by
  intro s
  refine ⟨fun hi => ?_, ?_, fun hrefused => ?_, step_of_breaksHandshake⟩
  · obtain ⟨r, p, es⟩ := s
    cases hi
    exact step_nil r p
  · by_cases h : BreaksHandshake s
    · exact .inr (step_of_breaksHandshake h)
    · exact .inl (step_of_not_breaksHandshake h)
  · by_contra h
    obtain ⟨t, ht⟩ := step_of_not_breaksHandshake h
    cases ht.symm.trans hrefused

/-! ## The channels in order -/

theorem portInv_of_rsp {p : Port} (hrsp : p.rsp ≠ none) (hreset : p.inReset = false) : p.Inv :=
  ⟨fun h => absurd h hrsp, fun h => absurd h (Bool.eq_false_iff.mp hreset)⟩

theorem portInv_of_idle {p : Port} (hrsp : p.rsp = none) (hwait : p.wait = 0)
    (hoffer : p.inReset = true → p.offer = none) : p.Inv :=
  ⟨fun _ => hwait, fun h => ⟨hrsp, hoffer h⟩⟩

theorem portInv_busyEdge {p : Port} (hinv : p.Inv) (pins : Pins) : (p.busyEdge pins).Inv := by
  refine ⟨fun hrsp => ?_, fun h => absurd h (by simp)⟩
  unfold Port.busyEdge at hrsp ⊢
  split_ifs at hrsp ⊢ with _ hwait
  · exact hinv.wait_rsp hrsp
  · exact absurd (hinv.wait_rsp hrsp) hwait
  · rfl
  · exact hinv.wait_rsp hrsp

theorem portInv_of_runWord {w : CmdWord} {s t : State} (h : runWord w s = .next t) (hreset : s.port.inReset = false) :
    t.port.Inv := by
  obtain ⟨r, a, rfl⟩ := answered_of_runWord h
  exact portInv_of_rsp (by simp) hreset

/-- Settles O37: a step leaves the channels, or idles them, or presents a response out of reset, or is a busy edge. -/
theorem stepKeepsTheChannelsInOrder : Obligations.StepKeepsTheChannelsInOrder := by
  intro s t hinv h
  cases step_ends h with
  | idle _ e | edgeIdle _ _ _ _ _ _ _ e => subst e; exact hinv
  | take _ _ e => subst e; exact portInv_of_idle rfl rfl fun hreset => (hinv.reset_idle hreset).2
  | reset _ _ e | edgeReset _ _ _ _ e => subst e; exact portInv_of_idle rfl rfl fun _ => rfl
  | command _ _ _ _ e => exact portInv_of_runWord e rfl
  | edgeBusy pins _ _ _ _ _ e => subst e; exact portInv_busyEdge hinv pins
  | edgeAccept _ _ _ _ _ hready _ e =>
    exact portInv_of_runWord e ((Port.cmdReady_iff _).mp hready).2

end Sys2Proof.Proofs
end

section
/-! PROOFS. Time (30_encoding.md R44, 70_reset_and_hazards.md R117, R118): the edges of a command's latency, and the
acts of the host as sequences of edges. -/

namespace Sys2Proof.Proofs

open Sys2Proof.Machine Sys2Proof.Claims

theorem run_one (s : State) : Host.Core.run Sys2Proof.core 1 s = step s := by
  cases h : step s with
  | next t => exact run_succ 0 h
  | fault r => cases r
  | refused r =>
    have h' : Sys2Proof.core.step s = .refused r := h
    simp only [Host.Core.run, h']
    rfl

/-- A run of two steps. -/
theorem run_two {s t : State} (h : step s = .next t) : Host.Core.run Sys2Proof.core 2 s = step t :=
  (run_succ 1 h).trans (run_one t)

/-! ## Edges with a response outstanding -/

section
variable {r : Regs} {p : Port} {pins : Pins} {rest : List HostEvent} (hrst : pins.rst = false)
  (hreset : p.inReset = false) (hrsp : p.rsp ≠ none) (hheld : p.heldBy pins.offered = true)
include hrst hreset hrsp hheld

theorem step_edge_of_held (hnot : ¬(p.rspValid = true ∧ pins.rspReady = true)) :
    step ⟨r, p, .edge pins :: rest⟩ = .next ⟨r, { p with wait := p.wait - 1, offer := pins.offered }, rest⟩ := by
  rw [step_edge_busy r p pins rest hrst hheld (cmdReady_false_of_rsp hrsp), busyEdge_of_held hreset hrsp hnot]

theorem step_edge_of_taken (hwait : p.wait = 0) (hready : pins.rspReady = true) :
    step ⟨r, p, .edge pins :: rest⟩ = .next ⟨r, { p.take with offer := pins.offered }, rest⟩ := by
  rw [step_edge_busy r p pins rest hrst hheld (cmdReady_false_of_rsp hrsp),
    busyEdge_of_taken hreset ((Port.rspValid_iff p).mpr ⟨hrsp, hwait⟩) hready]

end

theorem rspValid_false_of_wait {p : Port} (hwait : p.wait ≠ 0) : ¬p.rspValid = true :=
  fun hvalid => hwait ((Port.rspValid_iff p).mp hvalid).2

/-- Edges with a steady offer while the latency runs count it down and do nothing else. -/
theorem run_waits {o : Option CmdWord} (waits : List Pins) (hwaits : ∀ q ∈ waits, q.rst = false ∧ q.offered = o)
    (r : Regs) (p : Port) (rest : List HostEvent) (hreset : p.inReset = false) (hrsp : p.rsp ≠ none)
    (hoffer : p.offer = none ∨ p.offer = o) (hlen : waits.length ≤ p.wait) :
    ∃ f, (f = p.offer ∨ f = o) ∧
      Host.Core.run Sys2Proof.core waits.length ⟨r, p, waits.map .edge ++ rest⟩ =
        .next ⟨r, { p with wait := p.wait - waits.length, offer := f }, rest⟩ := by
  induction waits generalizing p with
  | nil => exact ⟨p.offer, .inl rfl, rfl⟩
  | cons q qs ih =>
    obtain ⟨hrst, hq⟩ := hwaits q List.mem_cons_self
    have hwait : p.wait ≠ 0 := by
      rw [List.length_cons] at hlen
      omega
    have hstep := step_edge_of_held (r := r) (rest := qs.map .edge ++ rest) hrst hreset hrsp
      ((heldBy_iff p _).mpr (hq.symm ▸ hoffer)) fun h => rspValid_false_of_wait hwait h.1
    obtain ⟨f, hf, hrun⟩ := ih (fun q hq => hwaits q (List.mem_cons_of_mem _ hq))
      { p with wait := p.wait - 1, offer := q.offered } hreset hrsp (.inr hq) (Nat.le_sub_one_of_lt hlen)
    have hcount : p.wait - 1 - qs.length = p.wait - (qs.length + 1) := by omega
    refine ⟨f, .inr (by simpa [hq] using hf), ?_⟩
    rw [List.length_cons, List.map_cons, List.cons_append, run_succ _ hstep, hrun, hcount]

/-- The state right after an accepting edge: the response is computed, its latency still to run. -/
theorem step_edge_accept_answered {s : State} {pins : Pins} (hrst : pins.rst = false) (hvalid : pins.cmdValid = true)
    (hready : s.port.cmdReady = true) (hheld : s.port.heldBy (some pins.cmd) = true) :
    ∃ r a, ∀ rest, step { s with inbox := .edge pins :: rest } =
        .next ⟨r, ⟨some a, Config.lat (opField pins.cmd), false, none, s.port.taken⟩, rest⟩ ∧
      step { s with inbox := .command pins.cmd :: rest } =
        .next ⟨r, ⟨some a, 0, false, none, s.port.taken⟩, rest⟩ := by
  obtain ⟨hrsp, hreset⟩ := (Port.cmdReady_iff _).mp hready
  obtain ⟨r, a, hshape⟩ := runWord_shape pins.cmd s.regs
  refine ⟨r, a, fun rest => ⟨?_, ?_⟩⟩
  · refine ((step_edge_accept s.regs s.port pins rest hrst hvalid hheld hready).trans (hshape _ rfl)).trans ?_
    simp only [State.answered, hreset]
  · refine ((step_command s.regs s.port pins.cmd rest hheld).trans (hshape _ rfl)).trans ?_
    simp only [State.answered, Port.accepting, Port.take, hrsp, Option.toList_none, List.append_nil]

/-- Settles O32: `LAT(op) - 1` cycles are left after the accepting edge, each edge passes one of them, and a valid
response that is not taken is held. -/
theorem everyAcceptedCommandIsAnsweredInTime : Obligations.EveryAcceptedCommandIsAnsweredInTime := by
  refine ⟨fun s pins o waits hrst hvalid hready hheld hwaits hlen => ?_,
    fun s pins hrst hnot hvalid hreset hheld => ?_⟩
  · obtain ⟨r, a, haccept⟩ := step_edge_accept_answered hrst hvalid hready hheld
    have hle : waits.length ≤ Config.lat (opField pins.cmd) := Nat.le_of_lt_succ hlen
    obtain ⟨f, -, hrun⟩ := run_waits waits hwaits r
      ⟨some a, Config.lat (opField pins.cmd), false, none, s.port.taken⟩ [] rfl nofun (.inl rfl) hle
    rw [List.append_nil] at hrun
    have hlength : (HostEvent.edge pins :: waits.map HostEvent.edge).length = waits.length + 1 := by simp
    have hruns := (run_succ _ (haccept _).1).trans hrun
    rw [← hlength] at hruns
    refine ⟨_, hruns, cmdReady_false_of_rsp nofun, ?_⟩
    simp only [Port.rspValid_iff, Config.latency, ne_eq, reduceCtorEq, not_false_eq_true, true_and]
    omega
  · obtain ⟨hrsp, hwait⟩ := (Port.rspValid_iff _).mp hvalid
    refine ⟨_, (run_one _).trans (step_edge_of_held hrst hreset hrsp hheld (by simp [hnot])), ?_, rfl, rfl⟩
    exact (Port.rspValid_iff _).mpr ⟨hrsp, by simp [hwait]⟩

/-! ## The acts of the host -/

/-- A taking is the edges of the latency still to run and one more. -/
theorem run_edges_take {pins : Pins} (hrst : pins.rst = false) (hready : pins.rspReady = true) (n : Nat) (r : Regs)
    (p : Port) (rest : List HostEvent) (hwait : p.wait = n) (hoffer : pins.offered = p.offer) (hrsp : p.rsp ≠ none)
    (hreset : p.inReset = false) :
    Host.Core.run Sys2Proof.core (n + 1) ⟨r, p, List.replicate (n + 1) (.edge pins) ++ rest⟩ =
      .next ⟨r, p.take, rest⟩ := by
  have hheld : p.heldBy pins.offered = true := (heldBy_iff p _).mpr (.inr hoffer.symm)
  induction n generalizing p with
  | zero => rw [run_one]; exact (step_edge_of_taken hrst hreset hrsp hheld hwait hready).trans (by rw [hoffer]; rfl)
  | succ n ih =>
    have hnot : ¬p.rspValid = true := rspValid_false_of_wait (by omega)
    have hstep := step_edge_of_held (r := r) (rest := List.replicate (n + 1) (.edge pins) ++ rest) hrst hreset hrsp
      hheld fun h => hnot h.1
    have hrest := ih { p with wait := p.wait - 1, offer := pins.offered } (by simp [hwait]) rfl hrsp hreset
      ((heldBy_iff _ _).mpr (.inr rfl))
    refine ((run_succ _ hstep).trans hrest).trans ?_
    rw [hoffer]
    rfl

/-- A command is its accepting edge and the edges of its latency. -/
theorem run_command_edges {s : State} {w : CmdWord} (ready : Bool) (hready : s.port.cmdReady = true)
    (hheld : s.port.heldBy (some w) = true) (rest : List HostEvent) :
    Host.Core.run Sys2Proof.core (Config.latency (opField w))
        { s with inbox := .edge ⟨false, true, w, ready⟩ ::
            (List.replicate (Config.latency (opField w) - 1) (.edge idlePins) ++ rest) } =
      step { s with inbox := .command w :: rest } := by
  obtain ⟨r, a, haccept⟩ := step_edge_accept_answered (pins := ⟨false, true, w, ready⟩) rfl rfl hready hheld
  obtain ⟨f, hf, hrun⟩ := run_waits (o := none) (List.replicate (Config.lat (opField w)) idlePins)
    (fun q hq => by rw [List.eq_of_mem_replicate hq]; exact ⟨rfl, rfl⟩) r
    ⟨some a, Config.lat (opField w), false, none, s.port.taken⟩ rest rfl nofun (.inl rfl) (by simp)
  obtain rfl : f = none := or_self_iff.mp hf
  rw [(haccept rest).2]
  refine (run_succ (Config.lat (opField w)) (haccept _).1).trans ?_
  simp only [List.length_replicate, List.map_replicate, Nat.sub_self] at hrun
  exact hrun

theorem accepting_take (p : Port) : p.take.accepting = p.accepting := by
  simp [Port.accepting, Port.take]

theorem take_eq_self {p : Port} (hinv : p.Inv) (hrsp : p.rsp = none) : p.take = p := by
  rw [Port.take, hrsp, Option.toList_none, List.append_nil, ← hinv.wait_rsp hrsp, ← hrsp]

/-- Settles O33: each act and its sequence of edges leave the channels the same, since an edge at which the host does
nothing passes one cycle of latency or ends the reset. -/
theorem hostActsAreSequencesOfEdges : Obligations.HostActsAreSequencesOfEdges := by
  intro s rest
  refine ⟨fun w ready hready hheld => run_command_edges ready hready hheld rest, fun w hinv hreset => ?_,
    fun w hheld => ?_, fun pins hrst hready hoffer hrsp hreset => ?_, fun hinv hrsp => ?_, fun on hon => ?_⟩
  · obtain ⟨hrsp, hoffer⟩ := hinv.reset_idle hreset
    have hstep := step_edge_busy s.regs s.port idlePins (.command w :: rest) rfl ((heldBy_iff _ _).mpr (.inl hoffer))
      (by simp [Port.cmdReady, hreset])
    rw [run_two hstep, busyEdge_of_inReset idlePins hreset, step_command _ _ _ _ rfl,
      step_command_of_no_offer hoffer]
    rfl
  · rw [run_two (step_take s.regs s.port (.command w :: rest)), step_command s.regs s.port w rest hheld,
      step_command s.regs s.port.take w rest hheld, accepting_take]
  · exact run_edges_take hrst hready s.port.wait s.regs s.port rest rfl hoffer hrsp hreset
  · exact (step_take s.regs s.port rest).trans (by rw [take_eq_self hinv hrsp])
  · rw [run_two (step_edge_reset s.regs s.port on _ hon), step_edge_busy _ _ _ _ rfl rfl rfl]
    rfl

end Sys2Proof.Proofs
end

section
/-! PROOFS. What every step keeps (10_state.md): the invariants of the registers (R23), the flags (R19 to R21), `RESULT`
(R18), and the registers nothing can observe (R26). -/

namespace Sys2Proof.Proofs

open Sys2Proof.Machine Sys2Proof.Claims

/-! ## The registers after a step -/

/-- An accepted word leaves the registers, as a reserved opcode does, or is the execution of its command. -/
theorem runWord_exec {w : CmdWord} {s t : State} (h : runWord w s = .next t) :
    t.regs = s.regs ∨ ∃ i, encode i = w ∧ exec i s = .next t := by
  cases hdec : decode w with
  | reservedOpcode op =>
    cases (runWord_of_decode_reservedOpcode hdec s).symm.trans h
    exact .inl rfl
  | instr i => exact .inr ⟨i, encode_of_decode hdec, (runWord_of_decode hdec s).symm.trans h⟩

/-- What a step can do to the registers: nothing, a reset, or the execution of the command of the word it accepts. -/
inductive RegsAfter (s t : State) : Prop
  | kept (e : t.regs = s.regs)
  | reset (hr : resets s) (e : t.regs = Regs.reset)
  | executed (i : Instr) (s' : State) (hw : accepts s (encode i)) (hs : s'.regs = s.regs) (e : exec i s' = .next t)

theorem regsAfter_of_runWord {w : CmdWord} {s s' t : State} (hw : accepts s w) (h : runWord w s' = .next t)
    (hs : s'.regs = s.regs) : RegsAfter s t := by
  rcases runWord_exec h with hkept | ⟨i, rfl, e⟩
  · exact .kept (hkept.trans hs)
  · exact .executed i s' hw hs e

theorem regs_after_step {s t : State} (h : step s = .next t) : RegsAfter s t := by
  cases step_ends h with
  | idle _ e | take _ _ e | edgeBusy _ _ _ _ _ _ e | edgeIdle _ _ _ _ _ _ _ e => exact .kept (by rw [e])
  | reset rest hi e => exact .reset (.inl ⟨rest, hi⟩) (by rw [e])
  | edgeReset pins rest hi hrst e => exact .reset (.inr ⟨pins, rest, hi, hrst⟩) (by rw [e])
  | command w rest hi _ e => exact regsAfter_of_runWord (.inl ⟨rest, hi⟩) e rfl
  | edgeAccept pins rest hi hrst _ hready hvalid e =>
    exact regsAfter_of_runWord (.inr ⟨pins, rest, hi, hrst, hvalid, hready, rfl⟩) e rfl

/-! ## The invariants -/

theorem inv_reset : Regs.reset.Inv where
  width_le := by decide
  active_width := nofun
  active_acc := nofun
  not_both := nofun
  rvalid_width := nofun

theorem resultInv_reset : Regs.reset.ResultInv none where
  valid_finished := nofun
  clear_above := nofun
  never_finished := fun _ => rfl

/-- Settles O36: in the reset values no flag is set and no width configured, and the reset channels hold nothing. -/
theorem resetMeetsTheInvariants : Obligations.ResetMeetsTheInvariants :=
  ⟨inv_reset, resultInv_reset, portInv_of_idle rfl rfl fun _ => rfl⟩

/-- A legal width, written while no computation is in progress. -/
theorem inv_setw {r : Regs} {arg : Word} (hinv : r.Inv) (hwf : (Instr.setw arg).wf = true)
    (hidle : r.active = false) : (r.write arg .width).Inv where
  width_le := by
    obtain ⟨-, hhi⟩ := (Operand.fitsAW_iff arg).mp ((wf_aw arg).symm.trans hwf)
    exact (Operand.width_toNat arg).trans_le ((Nat.mod_le _ _).trans hhi)
  active_width := fun _ => operandWidth_ne_zero_of_wf hwf
  active_acc := fun hact => absurd hact (Bool.eq_false_iff.mp hidle)
  not_both := hinv.not_both
  rvalid_width := fun _ => operandWidth_ne_zero_of_wf hwf

/-- The invariants do not speak of the registers the other `SET`s write. -/
theorem inv_write_of_ne_width {r : Regs} {n : RegName} (hinv : r.Inv) (arg : Word) (hn : n ≠ .width) :
    (r.write arg n).Inv := by
  obtain ⟨hle, hwidth, hacc, hboth, hvalid⟩ := hinv
  cases n with
  | width => exact absurd rfl hn
  | poly | init | xorout | refl | status | result => exact ⟨hle, hwidth, hacc, hboth, hvalid⟩

theorem inv_started {r : Regs} (hinv : r.Inv) (hwidth : r.width ≠ 0) : r.started.Inv where
  width_le := hinv.width_le
  active_width := fun _ => hwidth
  active_acc := fun _ i hi => by
    have hlt : ¬i < r.width.toNat := not_lt.mpr hi
    rw [Regs.started_eq, Crc.and_mask_getLsbD, decide_eq_false hlt, Bool.false_and]
  not_both := nofun
  rvalid_width := nofun

theorem inv_absorbed {r : Regs} (hinv : r.Inv) (d : Byte) : (r.absorbed d).Inv where
  width_le := hinv.width_le
  active_width := hinv.active_width
  active_acc := fun _ i hi => Crc.absorbByte_clear _ _ _ _ _ i hi
  not_both := hinv.not_both
  rvalid_width := hinv.rvalid_width

theorem inv_finished {r : Regs} (hinv : r.Inv) (hact : r.active = true) : r.finished.Inv where
  width_le := hinv.width_le
  active_width := nofun
  active_acc := nofun
  not_both := nofun
  rvalid_width := fun _ => hinv.active_width hact

theorem exec_keeps_inv {i : Instr} {s t : State} (hinv : s.regs.Inv) (h : exec i s = .next t) : t.regs.Inv := by
  cases exec_ends i s with
  | errArg _ e | errBusy _ _ _ e | errSeq _ _ e | errCfg _ _ e | nop _ e | get _ _ e => rwa [regs_of_exec h e]
  | srst _ e => rw [regs_of_exec h e]; exact inv_reset
  | set n arg hwf hidle hi e =>
    rw [regs_of_exec h e]
    rcases hi with ⟨rfl, rfl⟩ | ⟨rfl, _⟩ | ⟨rfl, _⟩ | ⟨rfl, _⟩ | ⟨rfl, _⟩
    · exact inv_setw hinv hwf hidle
    all_goals exact inv_write_of_ne_width hinv arg nofun
  | start _ hwidth e => rw [regs_of_exec h e]; exact inv_started hinv hwidth
  | pushb arg _ _ _ e => rw [regs_of_exec h e]; exact inv_absorbed hinv _
  | finish _ hact e => rw [regs_of_exec h e]; exact inv_finished hinv hact

/-! ## `RESULT` -/

/-- What an execution does to `RESULT` and `RVALID`: it resets the registers, ends a computation, or writes no `RESULT`
and makes none valid. -/
theorem exec_result_cases {i : Instr} {s t : State} (h : exec i s = .next t) :
    (i = .srst 0 ∧ t.regs = Regs.reset) ∨ (i = .finish 0 ∧ s.regs.active = true ∧ t.regs = s.regs.finished) ∨
      (t.regs.result = s.regs.result ∧ (t.regs.rvalid = true → s.regs.rvalid = true)) := by
  cases exec_ends i s with
  | srst hi e => exact .inl ⟨hi, regs_of_exec h e⟩
  | finish hi hact e => exact .inr (.inl ⟨hi, hact, regs_of_exec h e⟩)
  | errArg _ e | errBusy _ _ _ e | errSeq _ _ e | errCfg _ _ e | nop _ e | get _ _ e | pushb _ _ _ _ e =>
    rw [regs_of_exec h e]
    exact .inr (.inr ⟨rfl, id⟩)
  | start _ _ e =>
    rw [regs_of_exec h e]
    exact .inr (.inr ⟨rfl, nofun⟩)
  | set n arg _ _ _ e =>
    rw [regs_of_exec h e]
    exact .inr (.inr (by cases n <;> exact ⟨rfl, id⟩))

/-- The same of a step. -/
theorem step_result_cases {s t : State} (h : step s = .next t) :
    t.regs = Regs.reset ∨ (s.regs.active = true ∧ t.regs = s.regs.finished) ∨
      (t.regs.result = s.regs.result ∧ (t.regs.rvalid = true → s.regs.rvalid = true)) := by
  cases regs_after_step h with
  | kept e => rw [e]; exact .inr (.inr ⟨rfl, id⟩)
  | reset _ e => exact .inl e
  | executed i s' _ hs e =>
    rw [← hs]
    rcases exec_result_cases e with ⟨_, hreset⟩ | ⟨_, hfinished⟩ | hsame
    · exact .inl hreset
    · exact .inr (.inl hfinished)
    · exact .inr (.inr hsame)

/-- Settles O41: `FINISH` is the one command besides `SRST` that writes `RESULT`, and it writes the two flags with it.
-/
theorem resultStaysUntilFinishOrReset : Obligations.ResultStaysUntilFinishOrReset := by
  refine ⟨fun i s t h hsrst hfinish => ?_, fun s t h => ?_⟩
  · rcases exec_result_cases h with ⟨hi, _⟩ | ⟨hi, hact, _⟩ | ⟨hsame, _⟩
    · exact absurd hi hsrst
    · exact absurd ⟨hi, hact⟩ hfinish
    · exact hsame
  · rcases step_result_cases h with hreset | ⟨hact, hfinished⟩ | ⟨hsame, _⟩
    · exact .inr (.inl hreset)
    · exact .inr (.inr ⟨hact, by rw [hfinished]; rfl, by rw [hfinished]; rfl⟩)
    · exact .inl hsame

/-- After a `FINISH` the last width is the one in force. -/
theorem lastWidth_of_finished {s t : State} (last : Option (BitVec 6)) (hact : s.regs.active = true)
    (hfinished : t.regs = s.regs.finished) : lastWidth s t last = some s.regs.width := by
  have hvalid : t.regs.rvalid = true := by rw [hfinished]; rfl
  have hreset : t.regs ≠ Regs.reset := fun h => by rw [h] at hvalid; cases hvalid
  rw [lastWidth, if_neg hreset, if_pos ⟨hact, hvalid⟩]

/-- (e) and (f) of 10_state.md R23 over a step, with the width of the last `FINISH` carried along. -/
theorem step_keeps_resultInv {s t : State} {last : Option (BitVec 6)} (hinv : s.regs.Inv)
    (hres : s.regs.ResultInv last) (h : step s = .next t) : t.regs.ResultInv (lastWidth s t last) := by
  by_cases hreset : t.regs = Regs.reset
  · rw [lastWidth, if_pos hreset, hreset]
    exact resultInv_reset
  rcases step_result_cases h with hreset' | ⟨hact, hfinished⟩ | ⟨hsame, hvalid⟩
  · exact absurd hreset' hreset
  · rw [lastWidth_of_finished last hact hfinished, hfinished]
    exact ⟨fun _ => nofun, fun w hw => Option.some.inj hw ▸ finalize_clearAbove _ _ _ _, nofun⟩
  · have hnot : ¬(s.regs.active = true ∧ t.regs.rvalid = true) := fun ⟨hact, ht⟩ => hinv.not_both ⟨hact, hvalid ht⟩
    rw [lastWidth, if_neg hreset, if_neg hnot]
    exact ⟨fun ht => hres.valid_finished (hvalid ht), hsame ▸ hres.clear_above, hsame ▸ hres.never_finished⟩

/-- Settles O35: a step keeps the registers, resets them or executes a command, and each command's update meets the
invariants under the conditions it stands under. -/
theorem stepKeepsTheInvariants : Obligations.StepKeepsTheInvariants := by
  intro s t last hinv hres h
  refine ⟨?_, step_keeps_resultInv hinv hres h⟩
  cases regs_after_step h with
  | kept e => rwa [e]
  | reset _ e => rw [e]; exact inv_reset
  | executed i s' _ hs e => exact exec_keeps_inv (hs.symm ▸ hinv) e

/-! ## The flags -/

/-- What an execution does to the two flags: it is a success of one of the three commands that write them, or it is no
success of `START` or `FINISH` and leaves both. -/
theorem exec_flags_cases {i : Instr} {s t : State} (h : exec i s = .next t) : ∃ a, t.port.rsp = some a ∧
    ((i = .start 0 ∧ a.status = .ok ∧ s.regs.width ≠ 0 ∧ t.regs.active = true ∧ t.regs.rvalid = false) ∨
    (i = .finish 0 ∧ a.status = .ok ∧ s.regs.active = true ∧ t.regs.active = false ∧ t.regs.rvalid = true) ∨
    (i = .srst 0 ∧ t.regs.active = false ∧ t.regs.rvalid = false) ∨
    (¬((i = .start 0 ∨ i = .finish 0) ∧ a.status = .ok) ∧ t.regs.active = s.regs.active ∧
      t.regs.rvalid = s.regs.rvalid)) := by
  cases exec_ends i s with
  | start hi hwidth e => cases e.symm.trans h; exact ⟨_, rfl, .inl ⟨hi, rfl, hwidth, rfl, rfl⟩⟩
  | finish hi hact e => cases e.symm.trans h; exact ⟨_, rfl, .inr (.inl ⟨hi, rfl, hact, rfl, rfl⟩)⟩
  | srst hi e => cases e.symm.trans h; exact ⟨_, rfl, .inr (.inr (.inl ⟨hi, rfl, rfl⟩))⟩
  | errArg _ e | errBusy _ _ _ e | errSeq _ _ e | errCfg _ _ e =>
    cases e.symm.trans h
    exact ⟨_, rfl, .inr (.inr (.inr ⟨fun hok => (nomatch hok.2), rfl, rfl⟩))⟩
  | nop hi e | pushb _ hi _ _ e =>
    cases e.symm.trans h
    exact ⟨_, rfl, .inr (.inr (.inr ⟨fun hok => by simp [hi] at hok, rfl, rfl⟩))⟩
  | set n arg _ _ hi e =>
    cases e.symm.trans h
    refine ⟨_, rfl, .inr (.inr (.inr ⟨fun hok => ?_, by cases n <;> rfl, by cases n <;> rfl⟩))⟩
    obtain ⟨rfl | rfl, -⟩ := hok <;> simp at hi
  | get n hi e =>
    cases e.symm.trans h
    refine ⟨_, rfl, .inr (.inr (.inr ⟨fun hok => ?_, rfl, rfl⟩))⟩
    obtain ⟨rfl | rfl, -⟩ := hok <;> simp at hi

theorem regs_of_resets {s t : State} (hr : resets s) (h : step s = .next t) : t.regs = Regs.reset := by
  obtain ⟨r, p, es⟩ := s
  rcases hr with ⟨rest, hi⟩ | ⟨pins, rest, hi, hrst⟩ <;> cases hi
  · cases (step_reset r p rest).symm.trans h
    rfl
  · cases (step_edge_reset r p pins rest hrst).symm.trans h
    rfl

/-- A step that changes a flag is a reset, or accepts one of the three words that steer a computation. -/
theorem step_changes_flags {s t : State} (h : step s = .next t)
    (hchanged : t.regs.active ≠ s.regs.active ∨ t.regs.rvalid ≠ s.regs.rvalid) :
    resets s ∨
      (accepts s 0x3000000000 ∧ s.regs.width ≠ 0 ∧ t.regs.active = true ∧ t.regs.rvalid = false) ∨
      (accepts s 0x3200000000 ∧ s.regs.active = true ∧ t.regs.active = false ∧ t.regs.rvalid = true) ∨
      (accepts s 0x0100000000 ∧ t.regs.active = false ∧ t.regs.rvalid = false) := by
  have hstart : encode (.start 0) = 0x3000000000 := by decide
  have hfinish : encode (.finish 0) = 0x3200000000 := by decide
  have hsrst : encode (.srst 0) = 0x0100000000 := by decide
  cases regs_after_step h with
  | kept e => rw [e] at hchanged; simp at hchanged
  | reset hr _ => exact .inl hr
  | executed i s' hw hs e =>
    rw [← hs] at hchanged ⊢
    obtain ⟨a, -, ⟨rfl, -, hflags⟩ | ⟨rfl, -, hflags⟩ | ⟨rfl, hflags⟩ | ⟨-, hact, hvalid⟩⟩ := exec_flags_cases e
    · exact .inr (.inl ⟨hstart ▸ hw, hflags⟩)
    · exact .inr (.inr (.inl ⟨hfinish ▸ hw, hflags⟩))
    · exact .inr (.inr (.inr ⟨hsrst ▸ hw, hflags⟩))
    · exact absurd hchanged (by simp [hact, hvalid])

/-- Settles O39: each end of an execution is one of these cases, and a step changes the registers only by a reset or an
execution. -/
theorem flagsAreWrittenByStartFinishSrstOnly : Obligations.FlagsAreWrittenByStartFinishSrstOnly := by
  refine ⟨fun i s t a h ha => ?_, fun s t h => ⟨fun hr => ?_, step_changes_flags h⟩⟩
  · obtain ⟨b, hb, hcases⟩ := exec_flags_cases h
    cases hb.symm.trans ha
    rcases hcases with ⟨rfl, hok, -, hflags⟩ | ⟨rfl, hok, -, hflags⟩ | ⟨rfl, hflags⟩ | ⟨hnot, hflags⟩
    · exact ⟨fun _ => hflags, fun h => (nomatch h.1), nofun, fun h => absurd ⟨.inl rfl, hok⟩ h⟩
    · exact ⟨fun h => (nomatch h.1), fun _ => hflags, nofun, fun h => absurd ⟨.inr rfl, hok⟩ h⟩
    · exact ⟨fun h => (nomatch h.1), fun h => (nomatch h.1), fun _ => hflags, fun _ h => absurd rfl h⟩
    · refine ⟨fun h => absurd ⟨.inl h.1, h.2⟩ hnot, fun h => absurd ⟨.inr h.1, h.2⟩ hnot, ?_, fun _ _ => hflags⟩
      rintro rfl
      rw [regs_of_exec h (exec_srst_zero s)]
      exact ⟨rfl, rfl⟩
  · rw [regs_of_resets hr h]
    exact ⟨rfl, rfl⟩

/-! ## The registers nothing can observe -/

theorem sameVisible_refl (r : Regs) : SameVisible r r := ⟨rfl, fun _ => rfl, fun _ => rfl⟩

section
variable {r q : Regs} (h : SameVisible r q)
include h

theorem sameVisible_write (n : RegName) (arg : Word) : SameVisible (r.write arg n) (q.write arg n) := by
  obtain ⟨hq, hacc, hres⟩ := h
  rw [hq]
  cases n with
  | width | poly | init | xorout | refl | status | result => exact ⟨rfl, hacc, hres⟩

/-- `START` writes `ACC` from registers that can be read. -/
theorem sameVisible_started : SameVisible r.started q.started := by
  obtain ⟨hq, -, -⟩ := h
  rw [hq]
  exact ⟨rfl, fun _ => rfl, nofun⟩

theorem sameVisible_absorbed (hact : r.active = true) (d : Byte) : SameVisible (r.absorbed d) (q.absorbed d) := by
  obtain ⟨hq, hacc, hres⟩ := h
  rw [hq, hacc hact]
  exact ⟨rfl, fun _ => rfl, hres⟩

theorem finalValue_of_sameVisible (hact : r.active = true) : q.finalValue = r.finalValue := by
  obtain ⟨hq, hacc, -⟩ := h
  rw [hq, hacc hact]
  rfl

/-- `FINISH` writes `RESULT` from `ACC`, which is the same while the computation is in progress. -/
theorem sameVisible_finished (hact : r.active = true) : SameVisible r.finished q.finished := by
  have hvalue := finalValue_of_sameVisible h hact
  obtain ⟨hq, -, -⟩ := h
  refine ⟨?_, nofun, fun _ => hvalue⟩
  rw [Regs.finished_eq, hq]
  rfl

/-- What a `GET` can read is the same: `RESULT` only where it is valid. -/
theorem read_of_sameVisible {n : RegName} (hn : n = .result → r.rvalid = true) : q.read n = r.read n := by
  obtain ⟨hq, -, hres⟩ := h
  cases n with
  | result => exact hres (hn rfl)
  | width | poly | init | xorout | refl | status => rw [hq]; rfl

end

/-- A `SET` with an operand of its form and no computation in progress (40_config.md R56). -/
theorem exec_set_of_idle {i : Instr} {n : RegName} {arg : Word} {s : State} (hwf : i.wf = true)
    (hidle : s.regs.active = false)
    (hi : (n = .width ∧ i = .setw arg) ∨ (n = .poly ∧ i = .setp arg) ∨ (n = .init ∧ i = .seti arg) ∨
      (n = .xorout ∧ i = .setx arg) ∨ (n = .refl ∧ i = .setr arg)) :
    exec i s = .next (s.answered (s.regs.write arg n) ⟨.ok, 0⟩) := by
  rcases hi with ⟨rfl, rfl⟩ | ⟨rfl, rfl⟩ | ⟨rfl, rfl⟩ | ⟨rfl, rfl⟩ | ⟨rfl, rfl⟩
  · exact setParam_of_idle ((wf_aw arg).symm.trans hwf) hidle
  · exact setParam_of_idle (Operand.fitsA32_true arg) hidle
  · exact setParam_of_idle (Operand.fitsA32_true arg) hidle
  · exact setParam_of_idle (Operand.fitsA32_true arg) hidle
  · exact setParam_of_idle ((wf_ar arg).symm.trans hwf) hidle

/-- A legal operand of `PUSHB` is the byte it holds (30_encoding.md R47). -/
theorem setWidth_operandByte {arg : Word} (h : arg.toNat ≤ 255) : (Operand.byte arg).setWidth 32 = arg := by
  apply BitVec.eq_of_toNat_eq
  rw [BitVec.toNat_setWidth_of_le (by decide), Operand.byte_toNat]
  omega

theorem exec_pushb_of_active {arg : Word} {s : State} (hbyte : arg.toNat ≤ 255) (hact : s.regs.active = true) :
    exec (.pushb arg) s = .next (s.answered (s.regs.absorbed (Operand.byte arg)) ⟨.ok, 0⟩) := by
  have h := gives_pushb_of_active (Operand.byte arg) hact
  rwa [setWidth_operandByte hbyte] at h

/-- Two states whose registers differ in nothing observable answer a command alike. -/
theorem exec_sameVisible (i : Instr) {s t : State} (h : SameVisible s.regs t.regs) :
    ∃ r q a, exec i s = .next (s.answered r a) ∧ exec i t = .next (t.answered q a) ∧ SameVisible r q := by
  have hactive : t.regs.active = s.regs.active := by rw [h.1]
  have hvalid : t.regs.rvalid = s.regs.rvalid := by rw [h.1]
  have hwidth : t.regs.width = s.regs.width := by rw [h.1]
  cases exec_ends i s with
  | errArg hw e =>
    exact ⟨_, _, _, e, gives_errArg_of_operandError i ((operandError_iff_wf_false i).mpr hw) t, h⟩
  | errBusy hw hact hi e =>
    exact ⟨_, _, _, e, exec_set_of_active ((isSet_iff i).mpr hi) hw (hactive.trans hact), h⟩
  | errSeq hw hi e =>
    have hseq : sequenceError t.regs i := by
      rcases hi with ⟨rfl | ⟨arg, rfl⟩, hact⟩ | ⟨rfl, hnot⟩
      · exact hactive.trans hact
      · exact hactive.trans hact
      · exact hvalid.trans hnot
    exact ⟨_, _, _, e, gives_errSeq_of_sequenceError ((wf_iff_not_operandError i).mp hw) hseq, h⟩
  | errCfg hi hzero e => subst hi; exact ⟨_, _, _, e, gives_start_of_no_width (hwidth.trans hzero), h⟩
  | nop hi e => subst hi; exact ⟨_, _, _, e, gives_nop_zero t, h⟩
  | srst hi e => subst hi; exact ⟨_, _, _, e, exec_srst_zero t, sameVisible_refl _⟩
  | set n arg hw hidle hi e =>
    exact ⟨_, _, _, e, exec_set_of_idle hw (hactive.trans hidle) hi, sameVisible_write h n arg⟩
  | get n hi e =>
    have hread : t.regs.read n = s.regs.read n :=
      read_of_sameVisible h fun hn => by subst hn; exact (by simpa using hi : i = _ ∧ _).2
    refine ⟨_, _, _, e, ?_, h⟩
    rw [← hread]
    rcases hi with ⟨rfl, rfl⟩ | ⟨rfl, rfl⟩ | ⟨rfl, rfl⟩ | ⟨rfl, rfl⟩ | ⟨rfl, rfl⟩ | ⟨rfl, rfl⟩ | ⟨rfl, rfl, hr⟩
    case inr.inr.inr.inr.inr.inr => exact gives_getres_of_rvalid (hvalid.trans hr)
    all_goals exact getReg_zero _ t
  | start hi hne e =>
    subst hi
    exact ⟨_, _, _, e, gives_start_of_width (hwidth.trans_ne hne), sameVisible_started h⟩
  | pushb arg hi byte hact e =>
    subst hi
    exact ⟨_, _, _, e, exec_pushb_of_active byte (hactive.trans hact), sameVisible_absorbed h hact _⟩
  | finish hi hact e =>
    subst hi
    refine ⟨_, _, _, e, ?_, sameVisible_finished h hact⟩
    rw [← finalValue_of_sameVisible h hact]
    exact gives_finish_of_active (hactive.trans hact)

theorem runWord_sameVisible (w : CmdWord) {s t : State} (h : SameVisible s.regs t.regs) :
    ∃ r q a, runWord w s = .next (s.answered r a) ∧ runWord w t = .next (t.answered q a) ∧ SameVisible r q := by
  cases hdec : decode w with
  | reservedOpcode op =>
    exact ⟨_, _, _, runWord_of_decode_reservedOpcode hdec s, runWord_of_decode_reservedOpcode hdec t, h⟩
  | instr i =>
    rw [runWord_of_decode hdec, runWord_of_decode hdec]
    exact exec_sameVisible i h

/-- A word accepted by two states with the same channels, whose registers differ in nothing observable. -/
theorem runWord_next_sameVisible {w : CmdWord} {r q : Regs} {p : Port} {rest : List HostEvent} {s' : State}
    (h : SameVisible r q) (hrun : runWord w ⟨r, p, rest⟩ = .next s') :
    ∃ t', runWord w ⟨q, p, rest⟩ = .next t' ∧ SameVisible s'.regs t'.regs ∧ t'.port = s'.port ∧
      t'.inbox = s'.inbox := by
  obtain ⟨r', q', a, hr, hq, hsame⟩ := runWord_sameVisible w (s := ⟨r, p, rest⟩) (t := ⟨q, p, rest⟩) h
  cases hr.symm.trans hrun
  exact ⟨_, hq, hsame, rfl, rfl⟩

/-- Settles O43: the channels decide what a step does, and an accepted word is answered alike: `ACC` is looked at only
while `ACTIVE = 1`, `RESULT` only while `RVALID = 1`. -/
theorem hiddenRegistersCannotBeObserved : Obligations.HiddenRegistersCannotBeObserved := by
  rintro ⟨r, p, es⟩ ⟨q, p', es'⟩ s' h hport hinbox hstep
  obtain rfl : p = p' := hport.symm
  obtain rfl : es = es' := hinbox.symm
  cases step_ends hstep with
  | idle hi e => cases hi; subst e; exact ⟨_, step_nil q p, h, rfl, rfl⟩
  | take rest hi e => cases hi; subst e; exact ⟨_, step_take q p rest, h, rfl, rfl⟩
  | reset rest hi e => cases hi; subst e; exact ⟨_, step_reset q p rest, sameVisible_refl _, rfl, rfl⟩
  | edgeReset pins rest hi hrst e =>
    cases hi
    subst e
    exact ⟨_, step_edge_reset q p pins rest hrst, sameVisible_refl _, rfl, rfl⟩
  | edgeBusy pins rest hi hrst hheld hready e =>
    cases hi
    subst e
    exact ⟨_, step_edge_busy q p pins rest hrst hheld hready, h, rfl, rfl⟩
  | edgeIdle pins rest hi hrst hheld hready hvalid e =>
    cases hi
    subst e
    exact ⟨_, step_edge_idle q p pins rest hrst hvalid hheld hready, h, rfl, rfl⟩
  | command w rest hi hheld e =>
    cases hi
    rw [step_command q p w rest hheld]
    exact runWord_next_sameVisible h e
  | edgeAccept pins rest hi hrst hheld hready hvalid e =>
    cases hi
    rw [step_edge_accept q p pins rest hrst hvalid hheld hready]
    exact runWord_next_sameVisible h e

end Sys2Proof.Proofs
end

section
/-! PROOFS. Runs of command words (20_memory.md R38, R39): each word is answered once, in order, and what it leaves and
answers depends on the registers alone; so after a failed command the next runs as if it had not been sent
(60_exceptions.md R100), and `START` needs a `SETW` first (70_reset_and_hazards.md R111). -/

namespace Sys2Proof.Proofs

open Sys2Proof.Machine Sys2Proof.Claims

/-! ## Words and their answers -/

/-- With the registers `r` the word `w` leaves the registers `r'` and is answered `a`, whatever the channels. -/
def Answers (w : CmdWord) (r r' : Regs) (a : Response) : Prop :=
  ∀ s : State, s.regs = r → runWord w s = .next (s.answered r' a)

/-- The same of words in a row. -/
inductive AnswersAll : Regs → List CmdWord → Regs → List Response → Prop
  | nil (r : Regs) : AnswersAll r [] r []
  | cons {r r' r'' : Regs} {w : CmdWord} {ws : List CmdWord} {a : Response} {as : List Response}
      (head : Answers w r r' a) (tail : AnswersAll r' ws r'' as) : AnswersAll r (w :: ws) r'' (a :: as)

theorem exists_answers (w : CmdWord) (r : Regs) : ∃ r' a, Answers w r r' a := runWord_shape w r

theorem answers_of_gives {i : Instr} {r r' : Regs} {a : Response}
    (h : ∀ (p : Port) (es : List HostEvent), Gives i ⟨r, p, es⟩ r' a) : Answers (encode i) r r' a := by
  rintro ⟨_, p, es⟩ rfl
  exact (runWord_of_decode (decode_encode i) _).trans (h p es)

theorem answersAll_singleton {w : CmdWord} {r r' : Regs} {a : Response} (h : Answers w r r' a) :
    AnswersAll r [w] r' [a] := .cons h (.nil r')

theorem exists_answersAll (ws : List CmdWord) (r : Regs) : ∃ r' as, AnswersAll r ws r' as := by
  induction ws generalizing r with
  | nil => exact ⟨r, [], .nil r⟩
  | cons w ws ih =>
    obtain ⟨r', a, head⟩ := exists_answers w r
    obtain ⟨r'', as, tail⟩ := ih r'
    exact ⟨r'', a :: as, .cons head tail⟩

theorem answersAll_length {r r' : Regs} {ws : List CmdWord} {as : List Response} (h : AnswersAll r ws r' as) :
    as.length = ws.length := by
  induction h with
  | nil _ => rfl
  | cons _ _ ih => rw [List.length_cons, List.length_cons, ih]

theorem answersAll_append {r r' r'' : Regs} {ws ws' : List CmdWord} {as as' : List Response}
    (h : AnswersAll r ws r' as) (h' : AnswersAll r' ws' r'' as') : AnswersAll r (ws ++ ws') r'' (as ++ as') := by
  induction h with
  | nil _ => exact h'
  | cons head _ ih => exact .cons head (ih h')

theorem answersAll_take {r r' : Regs} {ws : List CmdWord} {as : List Response} (h : AnswersAll r ws r' as) (k : Nat) :
    ∃ r'', AnswersAll r (ws.take k) r'' (as.take k) := by
  induction h generalizing k with
  | nil r => exact ⟨r, by rw [List.take_nil, List.take_nil]; exact .nil r⟩
  | @cons r _ _ _ _ _ _ head _ ih =>
    cases k with
    | zero => exact ⟨r, .nil r⟩
    | succ k =>
      obtain ⟨r'', htake⟩ := ih k
      exact ⟨r'', .cons head htake⟩

/-! ## The channels after a run -/

/-- The channels after words in a row that were answered `as`: each but the last was taken before the next word (log
entries 3, 4). -/
def channelsAfter (p : Port) (as : List Response) : Port :=
  as.foldl (fun p a => { p.accepting with rsp := some a }) p

/-- The responses delivered, the one presented last: those of before and then those of the run. -/
theorem delivered_channelsAfter (p : Port) (as : List Response) :
    (channelsAfter p as).taken ++ (channelsAfter p as).rsp.toList = p.taken ++ p.rsp.toList ++ as := by
  induction as generalizing p with
  | nil => simp [channelsAfter]
  | cons a as ih =>
    have hrest := ih { p.accepting with rsp := some a }
    simpa [channelsAfter] using hrest

theorem channelsAfter_concat (p : Port) (as : List Response) (a : Response) :
    channelsAfter p (as ++ [a]) = ⟨some a, 0, false, none, p.taken ++ p.rsp.toList ++ as⟩ := by
  rw [← delivered_channelsAfter p as, channelsAfter, List.foldl_append]
  rfl

/-- A run over command words: the registers and the channels it ends in. -/
theorem run_commands {r r' : Regs} {ws : List CmdWord} {as : List Response} (h : AnswersAll r ws r' as) (p : Port)
    (hoffer : p.offer = none) (rest : List HostEvent) :
    Host.Core.run Sys2Proof.core ws.length ⟨r, p, commands ws ++ rest⟩ = .next ⟨r', channelsAfter p as, rest⟩ := by
  induction h generalizing p with
  | nil _ => rfl
  | @cons r r' _ w ws a _ head _ ih =>
    have hstep : step ⟨r, p, .command w :: (commands ws ++ rest)⟩ =
        .next ⟨r', { p.accepting with rsp := some a }, commands ws ++ rest⟩ :=
      (step_command_of_no_offer (s := ⟨r, p, []⟩) hoffer w _).trans (head _ rfl)
    exact (run_succ ws.length hstep).trans (ih _ rfl)

theorem runs_commands {s : State} {r' : Regs} {ws : List CmdWord} {as : List Response}
    (h : AnswersAll s.regs ws r' as) (hoffer : s.port.offer = none) :
    runs s (commands ws) = .next ⟨r', channelsAfter s.port as, []⟩ := by
  have hrun := run_commands h s.port hoffer []
  have hlength : (commands ws).length = ws.length := List.length_map ..
  rw [List.append_nil, ← hlength] at hrun
  exact hrun

/-- Settles O31: the responses are those of the words one by one, and the first `k` words give the first `k`. -/
theorem oneResponsePerCommandInOrder : Obligations.OneResponsePerCommandInOrder := by
  intro s ws hoffer
  obtain ⟨r', as, h⟩ := exists_answersAll ws s.regs
  refine ⟨as, answersAll_length h, fun k hk => ?_⟩
  obtain ⟨r'', htake⟩ := answersAll_take h k
  have hrun := run_commands htake s.port hoffer (commands (ws.drop k))
  have hsplit : commands (ws.take k) ++ commands (ws.drop k) = commands ws := by
    rw [commands, commands, ← List.map_append, List.take_append_drop, commands]
  rw [List.length_take_of_le hk, hsplit] at hrun
  exact ⟨_, hrun, delivered_channelsAfter s.port (as.take k)⟩

/-! ## After a failed command -/

/-- A word that is answered with a failure leaves the registers (60_exceptions.md R99). -/
theorem answers_failure_keeps_regs {w : CmdWord} {r r' : Regs} {a : Response} (h : Answers w r r' a)
    (hfail : a.status ≠ .ok) : r' = r := by
  have hrun := h ⟨r, Port.reset, []⟩ rfl
  rcases runWord_ok_or_writes_nothing w ⟨r, Port.reset, []⟩ with ⟨_, _, e⟩ | ⟨_, e⟩
  · cases e.symm.trans hrun
    exact absurd rfl hfail
  · cases e.symm.trans hrun
    rfl

/-- Settles O20: the second word finds the registers the first one found. -/
theorem failedCommandsAreAsIfNotSent : Obligations.FailedCommandsAreAsIfNotSent := by
  intro s t w w' a hoffer hrun hrsp hfail
  obtain ⟨r, b, hw⟩ := exists_answers w s.regs
  cases (runs_commands (answersAll_singleton hw) hoffer).symm.trans hrun
  cases hrsp
  obtain rfl := answers_failure_keeps_regs hw hfail
  obtain ⟨r', c, hw'⟩ := exists_answers w' s.regs
  exact ⟨_, _, runs_commands (.cons hw (answersAll_singleton hw')) hoffer,
    runs_commands (answersAll_singleton hw') hoffer, rfl, rfl⟩

/-! ## `START` without a width -/

/-- A word that is no `SETW` with a legal operand gives no width. -/
theorem answers_keeps_no_width {w : CmdWord} {r r' : Regs} {a : Response} (h : Answers w r r' a)
    (hw : ∀ arg, decode w = .instr (.setw arg) → operandError (.setw arg)) (hwidth : r.width = 0) : r'.width = 0 := by
  by_contra hne
  have hrun := h ⟨r, Port.reset, []⟩ rfl
  rcases runWord_exec hrun with hkept | ⟨i, rfl, e⟩
  · exact hne ((congrArg Regs.width hkept).trans hwidth)
  · obtain ⟨arg, rfl⟩ := eq_setw_of_exec_gives_width e hwidth hne
    have herr := gives_errArg_of_operandError (.setw arg) (hw arg (decode_encode _)) ⟨r, Port.reset, []⟩
    exact hne ((congrArg Regs.width (regs_of_exec e herr)).trans hwidth)

theorem answersAll_keeps_no_width {r r' : Regs} {ws : List CmdWord} {as : List Response}
    (h : AnswersAll r ws r' as)
    (hws : ∀ w ∈ ws, ∀ arg, decode w = .instr (.setw arg) → operandError (.setw arg)) (hwidth : r.width = 0) :
    r'.width = 0 := by
  induction h with
  | nil _ => exact hwidth
  | cons head _ ih =>
    exact ih (fun w hw => hws w (List.mem_cons_of_mem _ hw))
      (answers_keeps_no_width head (hws _ List.mem_cons_self) hwidth)

theorem encode_start_zero : encode (.start 0) = 0x3000000000 := by decide

/-- Settles O60: `WIDTH` is 0 after reset, and stays 0 over every word that is no successful `SETW`. -/
theorem startNeedsAWidthFirst : Obligations.StartNeedsAWidthFirst := by
  intro ws hws
  obtain ⟨r, as, h⟩ := exists_answersAll ws State.reset.regs
  have hwidth : r.width = 0 := answersAll_keeps_no_width h hws rfl
  have hstart : Answers 0x3000000000 r r ⟨.errCfg, 0⟩ := encode_start_zero ▸ answers_of_gives fun _ _ =>
    gives_start_of_no_width hwidth
  exact ⟨_, runs_commands (answersAll_append h (answersAll_singleton hstart)) rfl, by rw [channelsAfter_concat]⟩

end Sys2Proof.Proofs
end

section
/-! PROOFS. Whole computations (41_compute.md R83, R84, 70_reset_and_hazards.md R112, R116): `START`, words that do not
steer, `FINISH`, and the canonical sequence of `CONFIG` and `CHECKSUM` (30_encoding.md R54). -/

namespace Sys2Proof.Proofs

open Sys2Proof.Machine Sys2Proof.Claims

/-! ## The words that steer, and the bytes pushed -/

theorem encode_injective {i j : Instr} (h : encode i = encode j) : i = j := by
  have hdec : Decoded.instr i = .instr j := by rw [← decode_encode i, h, decode_encode]
  exact Decoded.instr.inj hdec

theorem encode_finish_zero : encode (.finish 0) = 0x3200000000 := by decide

theorem encode_srst_zero : encode (.srst 0) = 0x0100000000 := by decide

theorem steers_encode_iff (i : Instr) : steers (encode i) ↔ i = .start 0 ∨ i = .finish 0 ∨ i = .srst 0 := by
  rw [steers, ← encode_start_zero, ← encode_finish_zero, ← encode_srst_zero]
  exact or_congr ⟨encode_injective, congrArg encode⟩
    (or_congr ⟨encode_injective, congrArg encode⟩ ⟨encode_injective, congrArg encode⟩)

theorem operandByte_eq_setWidth (arg : Word) : Operand.byte arg = arg.setWidth 8 := by
  apply BitVec.eq_of_toNat_eq
  rw [Operand.byte_toNat, BitVec.toNat_setWidth]

theorem message_cons (w : CmdWord) (ws : List CmdWord) : message (w :: ws) = message [w] ++ message ws :=
  List.filterMap_append (l := [w])

/-- A legal `PUSHB` pushes its byte. -/
theorem message_pushb {arg : Word} (h : arg.toNat ≤ 255) : message [encode (.pushb arg)] = [Operand.byte arg] := by
  rw [operandByte_eq_setWidth, message, List.filterMap_cons, List.filterMap_nil, decode_encode]
  simp [h]

/-- Nothing else pushes a byte. -/
theorem pushb_of_message_ne_nil {w : CmdWord} (h : message [w] ≠ []) :
    ∃ arg : Word, arg.toNat ≤ 255 ∧ w = encode (.pushb arg) := by
  rw [message, List.filterMap_cons, List.filterMap_nil] at h
  split at h
  · exact absurd rfl h
  · rename_i heq
    split at heq
    · rename_i arg hdec
      split at heq
      · rename_i hbyte
        exact ⟨arg, hbyte, (encode_of_decode hdec).symm⟩
      · cases heq
    · cases heq

/-! ## The words between `START` and `FINISH` -/

/-- The registers of a computation in progress, after the bytes `m`. -/
def absorbing (r : Regs) (m : List Byte) : Regs := { r with acc := Crc.absorb r.params r.acc m }

theorem absorbing_nil (r : Regs) : absorbing r [] = r := rfl

theorem absorb_append (p : Crc.Params) (a : Word) (m m' : List Byte) :
    Crc.absorb p a (m ++ m') = Crc.absorb p (Crc.absorb p a m) m' := List.foldl_append ..

theorem absorbing_append (r : Regs) (m m' : List Byte) :
    absorbing r (m ++ m') = absorbing (absorbing r m) m' := by
  rw [absorbing, absorb_append]
  rfl

/-- During a computation a word that neither steers nor pushes a byte leaves the registers (60_exceptions.md R100). -/
theorem runWord_keeps_regs_of_active {w : CmdWord} {s t : State} (hact : s.regs.active = true) (hw : ¬steers w)
    (hbyte : message [w] = []) (h : runWord w s = .next t) : t.regs = s.regs := by
  rcases runWord_exec h with hkept | ⟨i, rfl, e⟩
  · exact hkept
  rw [steers_encode_iff] at hw
  cases exec_ends i s with
  | errArg _ e' | errBusy _ _ _ e' | errSeq _ _ e' | errCfg _ _ e' | nop _ e' | get _ _ e' => exact regs_of_exec e e'
  | set _ _ _ hidle _ _ => simp [hact] at hidle
  | start hi _ _ => exact absurd (.inl hi) hw
  | finish hi _ _ => exact absurd (.inr (.inl hi)) hw
  | srst hi _ => exact absurd (.inr (.inr hi)) hw
  | pushb arg hi hle _ _ => rw [hi, message_pushb hle] at hbyte; cases hbyte

/-- One word of a computation: it absorbs the byte it pushes, if it pushes one, and answers `OK` then. -/
theorem answers_of_active {r : Regs} {w : CmdWord} (hact : r.active = true) (hw : ¬steers w) :
    ∃ a, Answers w r (absorbing r (message [w])) a ∧ (message [w] ≠ [] → a = ⟨.ok, 0⟩) := by
  by_cases hbyte : message [w] = []
  · obtain ⟨r', a, h⟩ := exists_answers w r
    obtain rfl : r' = r := runWord_keeps_regs_of_active (s := ⟨r, Port.reset, []⟩) hact hw hbyte (h _ rfl)
    rw [hbyte, absorbing_nil]
    exact ⟨a, h, fun hne => absurd rfl hne⟩
  · obtain ⟨arg, hle, rfl⟩ := pushb_of_message_ne_nil hbyte
    rw [message_pushb hle]
    exact ⟨⟨.ok, 0⟩, answers_of_gives fun _ _ => exec_pushb_of_active hle hact, fun _ => rfl⟩

theorem answersAll_of_active {r : Regs} {body : List CmdWord} (hact : r.active = true)
    (hbody : ∀ w ∈ body, ¬steers w) :
    ∃ as, AnswersAll r body (absorbing r (message body)) as ∧
      List.Forall₂ (fun w a => message [w] ≠ [] → a = ⟨.ok, 0⟩) body as := by
  induction body generalizing r with
  | nil => exact ⟨[], .nil r, .nil⟩
  | cons w ws ih =>
    obtain ⟨a, head, ha⟩ := answers_of_active hact (hbody w List.mem_cons_self)
    obtain ⟨as, tail, has⟩ := ih (r := absorbing r (message [w])) hact
      fun v hv => hbody v (List.mem_cons_of_mem _ hv)
    rw [message_cons, absorbing_append]
    exact ⟨a :: as, .cons head tail, .cons ha has⟩

/-! ## The computation -/

/-- The registers `FINISH` leaves, of a computation begun with the registers `r` whose bytes were `m`. -/
def computed (r : Regs) (m : List Byte) : Regs := (absorbing r.started m).finished

/-- Its checksum is that of the parameters at `START` (41_compute.md R83). -/
theorem finalValue_absorbing_started (r : Regs) (m : List Byte) :
    (absorbing r.started m).finalValue = Crc.checksum r.params m := rfl

/-- `START`, words that do not steer, `FINISH`. -/
theorem answersAll_computation {r : Regs} {body : List CmdWord} (hwidth : r.width ≠ 0)
    (hbody : ∀ w ∈ body, ¬steers w) :
    ∃ as, AnswersAll r ([0x3000000000] ++ body ++ [0x3200000000]) (computed r (message body))
        ([⟨.ok, 0⟩] ++ as ++ [⟨.ok, Crc.checksum r.params (message body)⟩]) ∧
      List.Forall₂ (fun w a => message [w] ≠ [] → a = ⟨.ok, 0⟩) body as := by
  have hstart : Answers 0x3000000000 r r.started ⟨.ok, 0⟩ := encode_start_zero ▸ answers_of_gives fun _ _ =>
    gives_start_of_width hwidth
  obtain ⟨as, hmid, hok⟩ := answersAll_of_active (r := r.started) rfl hbody
  have hfinish : Answers 0x3200000000 (absorbing r.started (message body)) (computed r (message body))
      ⟨.ok, Crc.checksum r.params (message body)⟩ := by
    rw [← finalValue_absorbing_started]
    exact encode_finish_zero ▸ answers_of_gives fun _ _ => gives_finish_of_active rfl
  exact ⟨as, answersAll_append (answersAll_append (answersAll_singleton hstart) hmid) (answersAll_singleton hfinish),
    hok⟩

/-- Settles O57: the words in between absorb their bytes or leave the registers, and `FINISH` finishes the running CRC
that `START` began. -/
theorem wholeComputationReturnsTheChecksum : Obligations.WholeComputationReturnsTheChecksum := by
  intro s body hoffer hwidth hbody p c
  obtain ⟨as, h, hok⟩ := answersAll_computation hwidth hbody
  refine ⟨_, as, runs_commands h hoffer, ?_, hok, ?_, rfl, rfl, rfl, rfl⟩
  · rw [channelsAfter_concat, List.append_assoc _ _ as]
  · rw [channelsAfter_concat]

/-- Settles O58: both computations return the checksum of the same parameters and the same bytes. -/
theorem checksumDependsOnParametersAndMessageAlone : Obligations.ChecksumDependsOnParametersAndMessageAlone := by
  intro s s' body body' hoffer hoffer' hwidth hparams hbody hbody' hmessage
  have hwidth' : s'.regs.width ≠ 0 := by
    have hnat : s'.regs.width.toNat = s.regs.width.toNat := congrArg Crc.Params.width hparams
    rwa [BitVec.toNat_inj.mp hnat]
  obtain ⟨t, _, hrun, _, _, hrsp, _, hresult, _⟩ :=
    wholeComputationReturnsTheChecksum s body hoffer hwidth hbody
  obtain ⟨t', _, hrun', _, _, hrsp', _, hresult', _⟩ :=
    wholeComputationReturnsTheChecksum s' body' hoffer' hwidth' hbody'
  rw [hparams, hmessage] at hrsp' hresult'
  exact ⟨t, t', hrun, hrun', hrsp'.trans hrsp.symm, hresult'.trans hresult.symm⟩

/-! ## `CONFIG` and `CHECKSUM` -/

/-- The registers after `CONFIG`. -/
def configured (r : Regs) (w poly init xorout : Word) (refin refout : Bool) : Regs :=
  { r with
    width := BitVec.ofNat 6 w.toNat, poly := poly, init := init, xorout := xorout, refin := refin, refout := refout }

section
variable {r : Regs} (hidle : r.active = false)
include hidle

theorem answers_setw {w : Word} (hlo : 1 ≤ w.toNat) (hhi : w.toNat ≤ 32) :
    Answers (encode (.setw w)) r { r with width := BitVec.ofNat 6 w.toNat } ⟨.ok, 0⟩ :=
  answers_of_gives fun _ _ => gives_setw_of_idle hlo hhi hidle

theorem answers_setp (arg : Word) : Answers (encode (.setp arg)) r { r with poly := arg } ⟨.ok, 0⟩ :=
  answers_of_gives fun p es => ((setpSetiSetxStoreTheOperand ⟨r, p, es⟩ arg).1 hidle).1

theorem answers_seti (arg : Word) : Answers (encode (.seti arg)) r { r with init := arg } ⟨.ok, 0⟩ :=
  answers_of_gives fun p es => ((setpSetiSetxStoreTheOperand ⟨r, p, es⟩ arg).1 hidle).2.1

theorem answers_setx (arg : Word) : Answers (encode (.setx arg)) r { r with xorout := arg } ⟨.ok, 0⟩ :=
  answers_of_gives fun p es => ((setpSetiSetxStoreTheOperand ⟨r, p, es⟩ arg).1 hidle).2.2

theorem answers_setr (refin refout : Bool) :
    Answers (encode (.setr (Pseudo.reflOperand refin refout))) r { r with refin := refin, refout := refout }
      ⟨.ok, 0⟩ := by
  have hflags : Pseudo.reflOperand refin refout = BitVec.ofNat 32 (2 * refout.toNat + refin.toNat) :=
    pairWord_eq refout refin
  rw [hflags]
  exact answers_of_gives fun _ _ => gives_setr_of_idle refin refout hidle

theorem answersAll_config {w : Word} (poly init xorout : Word) (refin refout : Bool) (hlo : 1 ≤ w.toNat)
    (hhi : w.toNat ≤ 32) :
    AnswersAll r ((Pseudo.config w poly init xorout refin refout).map encode)
      (configured r w poly init xorout refin refout) (List.replicate 5 ⟨.ok, 0⟩) := by
  refine .cons (answers_setw hidle hlo hhi) (.cons (answers_setp ?_ poly) (.cons (answers_seti ?_ init)
    (.cons (answers_setx ?_ xorout) (answersAll_singleton (answers_setr ?_ refin refout)))))
  all_goals exact hidle

end

/-- The width is one of 1 to 32, so `WIDTH` holds it whole. -/
theorem configured_params (r : Regs) {w : Word} (poly init xorout : Word) (refin refout : Bool)
    (hhi : w.toNat ≤ 32) :
    (configured r w poly init xorout refin refout).params = ⟨w.toNat, poly, init, xorout, refin, refout⟩ := by
  have hwidth : (BitVec.ofNat 6 w.toNat).toNat = w.toNat := by rw [BitVec.toNat_ofNat]; omega
  rw [configured, Regs.params, hwidth]

theorem configured_width_ne_zero (r : Regs) {w : Word} (poly init xorout : Word) (refin refout : Bool)
    (hlo : 1 ≤ w.toNat) (hhi : w.toNat ≤ 32) : (configured r w poly init xorout refin refout).width ≠ 0 := by
  have hnat : (configured r w poly init xorout refin refout).width.toNat = w.toNat :=
    congrArg Crc.Params.width (configured_params r poly init xorout refin refout hhi)
  intro hzero
  have hzero' : w.toNat = 0 := by rw [← hnat, hzero]; rfl
  omega

/-- The words of a text are legal `PUSHB`s of its codes (30_encoding.md R54). -/
theorem message_pushs (text : List Char) (htext : ∀ c ∈ text, c.toNat ≤ 127) :
    message ((Pseudo.pushs text).map encode) = text.map fun c => BitVec.ofNat 8 c.toNat := by
  induction text with
  | nil => rfl
  | cons c cs ih =>
    have hc := htext c List.mem_cons_self
    have hnat : (BitVec.ofNat 32 c.toNat).toNat = c.toNat := by rw [BitVec.toNat_ofNat]; omega
    have hbyte : Operand.byte (BitVec.ofNat 32 c.toNat) = BitVec.ofNat 8 c.toNat := by
      apply BitVec.eq_of_toNat_eq
      rw [Operand.byte_toNat, hnat, BitVec.toNat_ofNat]
    have hrest := ih fun d hd => htext d (List.mem_cons_of_mem _ hd)
    rw [Pseudo.pushs, List.map_cons, List.map_cons, message_cons, message_pushb (by omega), hbyte]
    rw [Pseudo.pushs] at hrest
    rw [hrest]
    rfl

theorem eq_encode_of_mem_pushs {text : List Char} {w : CmdWord} (hw : w ∈ (Pseudo.pushs text).map encode) :
    ∃ c ∈ text, w = encode (.pushb (BitVec.ofNat 32 c.toNat)) := by
  simpa [Pseudo.pushs, eq_comm] using hw

/-- Words that each push a byte are all answered `OK`. -/
theorem replicate_of_forall₂ {body : List CmdWord} {as : List Response} (hbody : ∀ w ∈ body, message [w] ≠ [])
    (h : List.Forall₂ (fun w a => message [w] ≠ [] → a = ⟨.ok, 0⟩) body as) :
    as = List.replicate body.length ⟨.ok, 0⟩ := by
  induction h with
  | nil => rfl
  | cons ha _ ih =>
    rw [List.length_cons, List.replicate_succ, ha (hbody _ List.mem_cons_self),
      ih fun w hw => hbody w (List.mem_cons_of_mem _ hw)]

theorem answersAll_checksum {r : Regs} {text : List Char} (hwidth : r.width ≠ 0) (htext : ∀ c ∈ text, c.toNat ≤ 127) :
    ∃ r', AnswersAll r ((Pseudo.checksum text).map encode) r'
      (List.replicate (text.length + 1) ⟨.ok, 0⟩ ++
        [⟨.ok, Crc.checksum r.params (text.map fun c => BitVec.ofNat 8 c.toNat)⟩]) := by
  have hsteer : ∀ w ∈ (Pseudo.pushs text).map encode, ¬steers w := fun w hw => by
    obtain ⟨c, -, rfl⟩ := eq_encode_of_mem_pushs hw
    simp [steers_encode_iff]
  have hpush : ∀ w ∈ (Pseudo.pushs text).map encode, message [w] ≠ [] := fun w hw => by
    obtain ⟨c, hc, rfl⟩ := eq_encode_of_mem_pushs hw
    have hle := htext c hc
    rw [message_pushb (by rw [BitVec.toNat_ofNat]; omega)]
    exact List.cons_ne_nil _ _
  obtain ⟨as, h, hok⟩ := answersAll_computation hwidth hsteer
  have has : as = List.replicate text.length ⟨.ok, 0⟩ := by
    simpa [Pseudo.pushs] using replicate_of_forall₂ hpush hok
  refine ⟨computed r (text.map fun c => BitVec.ofNat 8 c.toNat), ?_⟩
  rw [message_pushs text htext, has] at h
  rw [Pseudo.checksum, List.map_append, List.map_append, List.map_singleton, List.map_singleton, encode_start_zero,
    encode_finish_zero, List.replicate_succ]
  exact h

/-- Settles O59: the five `SET`s leave the parameters given, and the computation returns the checksum of the text's
codes under them. -/
theorem canonicalSequenceComputesTheChecksum : Obligations.CanonicalSequenceComputesTheChecksum := by
  intro s w poly init xorout refin refout text hoffer hidle hlo hhi htext is c
  have hconfig := answersAll_config hidle poly init xorout refin refout hlo hhi
  have hwidth := configured_width_ne_zero s.regs poly init xorout refin refout hlo hhi
  obtain ⟨r', hchecksum⟩ := answersAll_checksum hwidth htext
  have hall := answersAll_append hconfig hchecksum
  rw [← List.map_append, configured_params s.regs poly init xorout refin refout hhi, ← List.append_assoc,
    List.replicate_append_replicate] at hall
  refine ⟨_, runs_commands hall hoffer, ?_, ?_⟩
  · rw [channelsAfter_concat]
  · rw [channelsAfter_concat, show 5 + (text.length + 1) = text.length + 6 by omega]

end Sys2Proof.Proofs
end

section
/-! PROOFS. The functions of the checksum (41_compute.md): one step bit by bit and its laws (R70, R75), bytes as bits
(R71), the byte form (R76), the final XOR and the reflection (R72, R85), linearity (R78 (g)), the polynomial 0 (R78
(e)) and the bits above the width (10_state.md R30). -/

namespace Sys2Proof.Proofs

open Sys2Proof.Machine Sys2Proof.Claims

/-! ## One step -/

/-- Settles O46: the shift moves bit `i - 1` up to `i`, the feedback adds the polynomial, the mask clears the rest. -/
theorem crcStepBitByBit : Obligations.CrcStepBitByBit := by
  intro W P a b hlo hhi fb
  refine ⟨?_, fun i hi hiW => ?_, fun i hi => Crc.crcStep_clear W P a b i hi⟩
  · have hW : 0 < W := hlo
    rw [Crc.crcStep_getLsbD]
    simp [hW, fb]
  · have h32 : i < 32 := by omega
    rw [Crc.crcStep_getLsbD]
    simp [hi, hiW, h32, fb]

/-- A step is linear in the register and the message bit together. -/
theorem crcStep_xor (W : Nat) (P a c : Word) (b d : Bool) :
    Crc.crcStep W P (a ^^^ c) (b ^^ d) = Crc.crcStep W P a b ^^^ Crc.crcStep W P c d := by
  refine Crc.eq_of_bits fun i => ?_
  simp only [Crc.crcStep_getLsbD, BitVec.getLsbD_xor, Bool.and_xor_distrib_left, Bool.and_xor_distrib_right,
    Bool.xor_assoc, Bool.xor_left_comm]

/-- With a message bit equal to the top bit there is no feedback. -/
theorem crcStep_of_top_eq {W : Nat} {c : Word} {b : Bool} (P : Word) (h : c.getLsbD (W - 1) = b) :
    Crc.crcStep W P c b = (c <<< 1) &&& Crc.mask W := by
  simp [Crc.crcStep, h]

/-- A message bit may as well stand at the top of the register (41_compute.md R75 (i)); what stands below it is shifted
up. -/
theorem crcStep_xor_top {W : Nat} {c : Word} {b : Bool} (P a : Word) (h : c.getLsbD (W - 1) = b) :
    Crc.crcStep W P (a ^^^ c) false = Crc.crcStep W P a b ^^^ ((c <<< 1) &&& Crc.mask W) := by
  rw [← crcStep_of_top_eq P h, ← crcStep_xor, Bool.xor_self]

theorem topBit_getLsbD {W : Nat} (b : Bool) (hlo : 1 ≤ W) (hhi : W ≤ 32) (i : Nat) :
    (BitVec.ofNat 32 b.toNat <<< (W - 1)).getLsbD i = (decide (i = W - 1) && b) := by
  rw [BitVec.getLsbD_shiftLeft]
  by_cases hi : i = W - 1
  · subst hi
    have h32 : W - 1 < 32 := by omega
    cases b <;> simp [h32]
  · rw [decide_eq_false hi, Bool.false_and]
    by_cases hlt : i < W - 1
    · simp [hlt]
    · have hne : i - (W - 1) ≠ 0 := by omega
      cases b <;> simp [BitVec.getLsbD_one, hne]

theorem and_mask_of_clearAbove {W : Nat} {v : Word} (h : ClearAbove W v) : v &&& Crc.mask W = v := by
  refine Crc.eq_of_bits fun i => ?_
  rw [Crc.and_mask_getLsbD]
  by_cases hi : i < W
  · simp [hi]
  · simp [hi, h i (not_lt.mp hi)]

theorem topBit_shifted_out {W : Nat} (b : Bool) (hlo : 1 ≤ W) (hhi : W ≤ 32) :
    ((BitVec.ofNat 32 b.toNat <<< (W - 1)) <<< 1) &&& Crc.mask W = 0 := by
  refine Crc.eq_of_bits fun i => ?_
  rw [Crc.and_mask_getLsbD, BitVec.getLsbD_shiftLeft, topBit_getLsbD b hlo hhi]
  by_cases hi : i < W ∧ ¬i < 1
  · have hne : i - 1 ≠ W - 1 := by omega
    simp [hne]
  · by_cases hiW : i < W
    · have h1 : i < 1 := by omega
      simp [h1]
    · simp [hiW]

/-- A shift out of a clear top bit (41_compute.md R75 (iii)). -/
theorem clearAbove_shiftLeft {W : Nat} {c : Word} (htop : c.getLsbD (W - 1) = false) (h : ClearAbove W c) :
    ClearAbove W (c <<< 1) := by
  intro i hi
  rw [BitVec.getLsbD_shiftLeft]
  by_cases hW : i - 1 = W - 1
  · simp [hW, htop]
  · simp [h (i - 1) (by omega)]

/-- Settles O47: all three laws come from the linearity of the step and from its having no feedback where the message
bit is the top bit. -/
theorem crcStepIsLinear : Obligations.CrcStepIsLinear := by
  intro W P a c b hlo hhi
  refine ⟨?_, ?_, fun htop hclear => ?_⟩
  · have htop : (BitVec.ofNat 32 b.toNat <<< (W - 1)).getLsbD (W - 1) = b := by
      rw [topBit_getLsbD b hlo hhi, decide_eq_true rfl, Bool.true_and]
    rw [crcStep_xor_top P a htop, topBit_shifted_out b hlo hhi]
    exact BitVec.xor_zero.symm
  · rw [← crcStep_xor, Bool.xor_self]
  · rw [crcStep_of_top_eq P htop, and_mask_of_clearAbove (clearAbove_shiftLeft htop hclear)]

/-! ## Bytes -/

theorem inputByte_getLsbD (rin : Bool) (d : Byte) (i : Nat) :
    (Crc.inputByte rin d).getLsbD i = (decide (i < 8) && d.getLsbD (if rin then 7 - i else i)) := by
  cases rin with
  | false =>
    by_cases hi : i < 8
    · simp [Crc.inputByte, hi, show i < 32 by omega]
    · simp [Crc.inputByte, hi, BitVec.getLsbD_of_ge d i (by omega)]
  | true =>
    have hreflect : (Crc.inputByte true d).getLsbD i = (decide (i < 8) && (d.setWidth 32).getLsbD (8 - 1 - i)) :=
      Crc.reflect_getLsbD 8 _ (by decide) i
    rw [hreflect, BitVec.getLsbD_setWidth, decide_eq_true (show 8 - 1 - i < 32 by omega)]
    simp

/-- Settles O48: bit 7 of the byte as it is absorbed enters first, and it is bit 7 or bit 0 of the byte. -/
theorem bytesEnterBitByBit : Obligations.BytesEnterBitByBit := by
  intro W P a rin d
  simp only [Crc.absorbByte, Crc.absorbBits, inputByte_getLsbD]
  cases rin with
  | false => rfl
  | true => rfl

theorem clearAbove_inputByte (rin : Bool) (d : Byte) : ClearAbove 8 (Crc.inputByte rin d) := fun i hi => by
  rw [inputByte_getLsbD, decide_eq_false (not_lt.mpr hi), Bool.false_and]

/-- The low `n + 1` bits of a message, aligned to the top and shifted up by one, are the low `n` bits so aligned. -/
theorem aligned_shiftLeft {W n : Nat} (e : Word) (hn : n + 1 ≤ W) (hW : W ≤ 32) :
    (((e &&& Crc.mask (n + 1)) <<< (W - (n + 1))) <<< 1) &&& Crc.mask W = (e &&& Crc.mask n) <<< (W - n) := by
  refine Crc.eq_of_bits fun i => ?_
  simp only [Crc.and_mask_getLsbD, BitVec.getLsbD_shiftLeft]
  by_cases hi : W - n ≤ i ∧ i < W
  · obtain ⟨hlo, hhi⟩ := hi
    have hplace : i - 1 - (W - (n + 1)) = i - (W - n) := by omega
    have h1 : ¬i < 1 := by omega
    have h2 : ¬i - 1 < W - (n + 1) := by omega
    have h3 : ¬i < W - n := by omega
    have h4 : i < 32 ∧ i - 1 < 32 ∧ i - (W - n) < n + 1 ∧ i - (W - n) < n := by omega
    simp [hplace, h1, h2, h3, h4, hhi]
  · rcases not_and_or.mp hi with hlo | hhi
    · have h1 : i < W - n := not_le.mp hlo
      have h2 : i < 1 ∨ i - 1 < W - (n + 1) := by omega
      rcases h2 with h2 | h2 <;> simp [h1, h2]
    · have h1 : ¬i - (W - n) < n := by omega
      simp [hhi, h1]

theorem aligned_top {W n : Nat} (e : Word) (hn : n + 1 ≤ W) (hW : W ≤ 32) :
    ((e &&& Crc.mask (n + 1)) <<< (W - (n + 1))).getLsbD (W - 1) = e.getLsbD n := by
  have hplace : W - 1 - (W - (n + 1)) = n := by omega
  have h32 : W - 1 < 32 := by omega
  have hge : ¬W - 1 < W - (n + 1) := by omega
  rw [BitVec.getLsbD_shiftLeft, Crc.and_mask_getLsbD, hplace]
  simp [h32, hge]

/-- Absorbing `n` bits, one message bit a step, is exclusive-oring them in at the top of the register and then `n` steps
with message bit 0 (41_compute.md R75). -/
theorem absorbBits_eq_steps {W n : Nat} (P e a : Word) (hn : n ≤ W) (hW : W ≤ 32) :
    Crc.absorbBits W P e n a = Crc.steps W P n (a ^^^ ((e &&& Crc.mask n) <<< (W - n))) := by
  induction n generalizing a with
  | zero =>
    have hmask : Crc.mask 0 = 0 := by decide
    simp [Crc.absorbBits, Crc.steps, hmask]
  | succ n ih =>
    rw [Crc.absorbBits, Crc.steps, ih _ (by omega), crcStep_xor_top P a (aligned_top e hn hW),
      aligned_shiftLeft e hn hW]

/-- Settles O52: the byte is the 8 bits that are absorbed, so it stands at the top once aligned. -/
theorem byteFormAgrees : Obligations.ByteFormAgrees := by
  intro W P a rin d hlo hhi
  rw [Crc.absorbByte, absorbBits_eq_steps P _ a hlo hhi, and_mask_of_clearAbove (clearAbove_inputByte rin d),
    Crc.absorbByteForm]

/-! ## The final XOR and the reflection -/

theorem clearAbove_xor {W : Nat} {v u : Word} (hv : ClearAbove W v) (hu : ClearAbove W u) : ClearAbove W (v ^^^ u) :=
  fun i hi => by rw [BitVec.getLsbD_xor, hv i hi, hu i hi, Bool.xor_self]

theorem clearAbove_and_mask (W : Nat) (v : Word) : ClearAbove W (v &&& Crc.mask W) := fun i hi => by
  rw [Crc.and_mask_getLsbD, decide_eq_false (not_lt.mpr hi), Bool.false_and]

theorem reflect_xor {n : Nat} (v u : Word) (hn : n ≤ 32) :
    Crc.reflect n (v ^^^ u) = Crc.reflect n v ^^^ Crc.reflect n u := by
  refine Crc.eq_of_bits fun i => ?_
  simp only [Crc.reflect_getLsbD n _ hn, BitVec.getLsbD_xor, Bool.and_xor_distrib_left]

theorem reflect_and_mask {n : Nat} (v : Word) (hn : n ≤ 32) : Crc.reflect n (v &&& Crc.mask n) = Crc.reflect n v := by
  refine Crc.eq_of_bits fun i => ?_
  rw [Crc.reflect_getLsbD n _ hn, Crc.reflect_getLsbD n _ hn, Crc.and_mask_getLsbD]
  by_cases hi : i < n
  · simp [hi, show n - 1 - i < n by omega]
  · simp [hi]

theorem finalize_false {W : Nat} {a : Word} (X : Word) (h : ClearAbove W a) :
    Crc.finalize W X false a = a ^^^ (X &&& Crc.mask W) :=
  and_mask_of_clearAbove (clearAbove_xor h (clearAbove_and_mask W X))

theorem finalize_true {W : Nat} (X a : Word) (hW : W ≤ 32) :
    Crc.finalize W X true a = Crc.reflect W a ^^^ Crc.reflect W X := by
  rw [← reflect_and_mask X hW, ← reflect_xor _ _ hW]
  exact and_mask_of_clearAbove fun i hi => reflect_getLsbD_of_le _ hW hi

/-- Settles O49: the reflection is linear, so it may be taken of the running CRC and of the final XOR value apart. -/
theorem finalXorComesBeforeReflection : Obligations.FinalXorComesBeforeReflection := by
  refine ⟨fun W X a hlo hhi hclear => ⟨finalize_false X hclear, ?_, fun hself => ?_, ?_⟩, by decide, by decide⟩
  · rw [finalize_true X a hhi, reflect_xor _ _ hhi, reflect_and_mask X hhi]
  · rw [finalize_true X a hhi, hself]
  · rw [finalize_true _ a hhi, reflect_reflect X hhi]

/-! ## Linearity -/

theorem absorbBits_xor (W : Nat) (P e f : Word) (k : Nat) (a c : Word) :
    Crc.absorbBits W P (e ^^^ f) k (a ^^^ c) = Crc.absorbBits W P e k a ^^^ Crc.absorbBits W P f k c := by
  induction k generalizing a c with
  | zero => rfl
  | succ k ih => rw [Crc.absorbBits, BitVec.getLsbD_xor, crcStep_xor, ih, Crc.absorbBits, Crc.absorbBits]

theorem inputByte_xor (rin : Bool) (d e : Byte) :
    Crc.inputByte rin (d ^^^ e) = Crc.inputByte rin d ^^^ Crc.inputByte rin e := by
  refine Crc.eq_of_bits fun i => ?_
  simp only [inputByte_getLsbD, BitVec.getLsbD_xor, Bool.and_xor_distrib_left]

/-- The running CRC is linear in the register and the message together, for messages of equal length. -/
theorem absorb_xor (p : Crc.Params) {m m' : List Byte} (h : m.length = m'.length) (a c : Word) :
    Crc.absorb p (a ^^^ c) (m.zipWith (· ^^^ ·) m') = Crc.absorb p a m ^^^ Crc.absorb p c m' := by
  induction m generalizing m' a c with
  | nil => rw [List.length_eq_zero_iff.mp h.symm]; rfl
  | cons d ds ih =>
    obtain ⟨e, es, rfl⟩ := List.exists_cons_of_length_eq_add_one h.symm
    have hbyte : Crc.absorbByte p.width p.poly p.refin (a ^^^ c) (d ^^^ e) =
        Crc.absorbByte p.width p.poly p.refin a d ^^^ Crc.absorbByte p.width p.poly p.refin c e := by
      rw [Crc.absorbByte, inputByte_xor, absorbBits_xor, Crc.absorbByte, Crc.absorbByte]
    have htail := ih (Nat.succ.inj h) (Crc.absorbByte p.width p.poly p.refin a d)
      (Crc.absorbByte p.width p.poly p.refin c e)
    rw [← hbyte] at htail
    exact htail

/-- A value exclusive-ored in three times is exclusive-ored in once. -/
theorem finalize_xor_xor (W : Nat) (X a c e : Word) :
    Crc.finalize W X false (a ^^^ c ^^^ e) =
      Crc.finalize W X false a ^^^ Crc.finalize W X false c ^^^ Crc.finalize W X false e := by
  have hthree : ∀ m x y z v : Bool, (m && ((x ^^ y ^^ z) ^^ (m && v))) =
      ((m && (x ^^ (m && v))) ^^ (m && (y ^^ (m && v))) ^^ (m && (z ^^ (m && v)))) := by decide
  refine Crc.eq_of_bits fun i => ?_
  simp only [Crc.finalize, Bool.false_eq_true, if_false, Crc.and_mask_getLsbD, BitVec.getLsbD_xor]
  exact hthree _ _ _ _ _

/-- Settles O53: the initial value and the final XOR value each enter three times, the messages add up. -/
theorem checksumIsLinear : Obligations.ChecksumIsLinear := by
  intro p m₁ m₂ m₃ hlo hhi hrefout h₁₂ h₂₃
  have hlength : (m₁.zipWith (· ^^^ ·) m₂).length = m₃.length := by
    rw [List.length_zipWith, h₁₂, Nat.min_self, h₂₃]
  have hinit : p.init &&& Crc.mask p.width =
      (p.init &&& Crc.mask p.width) ^^^ (p.init &&& Crc.mask p.width) ^^^ (p.init &&& Crc.mask p.width) := by
    rw [BitVec.xor_self, BitVec.zero_xor]
  rw [Crc.checksum, Crc.checksum, Crc.checksum, Crc.checksum, hrefout, ← finalize_xor_xor, ← absorb_xor p h₁₂,
    ← absorb_xor p hlength, ← hinit]

/-! ## The polynomial 0 below the width -/

/-- Without feedback a step is a shift. -/
theorem crcStep_of_no_poly {W : Nat} {P : Word} (hP : P &&& Crc.mask W = 0) (a : Word) (b : Bool) :
    Crc.crcStep W P a b = (a <<< 1) &&& Crc.mask W := by
  have hnone : ((a <<< 1) &&& Crc.mask W) ^^^ (0 : Word) = (a <<< 1) &&& Crc.mask W := BitVec.xor_zero
  rw [Crc.crcStep, hP, hnone, ite_self]

/-- After `n` steps the low `n` bits are 0. -/
theorem foldl_crcStep_low {W : Nat} {P : Word} (hP : P &&& Crc.mask W = 0) (bs : List Bool) (a : Word) (i : Nat)
    (hi : i < bs.length) : (bs.foldl (Crc.crcStep W P) a).getLsbD i = false := by
  induction bs using List.reverseRecOn generalizing i with
  | nil => simp at hi
  | append_singleton bs b ih =>
    rw [List.length_append, List.length_singleton] at hi
    rw [List.foldl_append, List.foldl_cons, List.foldl_nil, crcStep_of_no_poly hP, Crc.and_mask_getLsbD,
      BitVec.getLsbD_shiftLeft]
    by_cases h0 : i < 1
    · simp [h0]
    · simp [ih (i - 1) (by omega)]

theorem foldl_crcStep_clear (W : Nat) (P : Word) {bs : List Bool} (hne : bs ≠ []) (a : Word) :
    ClearAbove W (bs.foldl (Crc.crcStep W P) a) := by
  induction bs using List.reverseRecOn with
  | nil => exact absurd rfl hne
  | append_singleton bs b _ =>
    rw [List.foldl_append]
    exact fun i hi => Crc.crcStep_clear W P _ b i hi

theorem absorbBits_zero (W : Nat) (e : Word) (k : Nat) : Crc.absorbBits W 0 e k 0 = 0 := by
  induction k with
  | zero => rfl
  | succ k ih =>
    have hstep : Crc.crcStep W 0 0 (e.getLsbD k) = 0 := by
      rw [crcStep_of_no_poly (by simp)]
      simp
    rw [Crc.absorbBits, hstep, ih]

theorem absorb_zero (p : Crc.Params) (hpoly : p.poly = 0) (m : List Byte) : Crc.absorb p 0 m = 0 := by
  induction m with
  | nil => rfl
  | cons d ds ih =>
    rw [Crc.absorb, List.foldl_cons, Crc.absorbByte, hpoly, absorbBits_zero]
    rwa [Crc.absorb, hpoly] at ih

/-- Settles O54: without feedback each step shifts a 0 in, so after `W` of them none of the bits below the width is
left. -/
theorem zeroPolynomialForgetsTheMessage : Obligations.ZeroPolynomialForgetsTheMessage := by
  refine ⟨fun W P a bs hlo hhi hP hlen => Crc.eq_of_bits fun i => ?_, fun W m hlo hhi => ?_⟩
  · rw [show (0 : Word).getLsbD i = false from BitVec.getLsbD_zero]
    by_cases hi : i < bs.length
    · exact foldl_crcStep_low hP bs a i hi
    · have hne : bs ≠ [] := List.ne_nil_of_length_pos (hlo.trans hlen)
      exact foldl_crcStep_clear W P hne a i (by omega)
  · have hinit : (0 : Word) &&& Crc.mask W = 0 := BitVec.zero_and
    have hclear : ClearAbove W 0 := fun i _ => BitVec.getLsbD_zero
    rw [Crc.checksum, hinit, absorb_zero _ rfl, finalize_false 0 hclear, hinit]
    rfl

/-! ## Bits above the width -/

/-- A step looks at the polynomial through the mask. -/
theorem crcStep_congr {W : Nat} {P Q : Word} (h : Q &&& Crc.mask W = P &&& Crc.mask W) :
    Crc.crcStep W Q = Crc.crcStep W P := by
  funext a b
  rw [Crc.crcStep, Crc.crcStep, h]

theorem absorbBits_congr {W : Nat} {P Q : Word} (h : Q &&& Crc.mask W = P &&& Crc.mask W) (e : Word) (k : Nat)
    (a : Word) : Crc.absorbBits W Q e k a = Crc.absorbBits W P e k a := by
  induction k generalizing a with
  | zero => rfl
  | succ k ih => rw [Crc.absorbBits, Crc.absorbBits, crcStep_congr h, ih]

theorem absorb_congr {p q : Crc.Params} (hwidth : q.width = p.width) (hrefin : q.refin = p.refin)
    (hpoly : q.poly &&& Crc.mask p.width = p.poly &&& Crc.mask p.width) (a : Word) (m : List Byte) :
    Crc.absorb q a m = Crc.absorb p a m := by
  have hbyte : Crc.absorbByte q.width q.poly q.refin = Crc.absorbByte p.width p.poly p.refin := by
    funext a d
    rw [hwidth, hrefin, Crc.absorbByte, Crc.absorbByte, absorbBits_congr hpoly]
  rw [Crc.absorb, Crc.absorb, hbyte]

/-- Settles O55: the polynomial, the initial value and the final XOR value are each used through the mask. -/
theorem bitsAboveTheWidthNeverMatter : Obligations.BitsAboveTheWidthNeverMatter := by
  intro p q m hwidth hrefin hrefout hpoly hinit hxorout
  have hfinal : ∀ a, Crc.finalize p.width q.xorout p.refout a = Crc.finalize p.width p.xorout p.refout a := by
    intro a
    rw [Crc.finalize, Crc.finalize, hxorout]
  rw [Crc.checksum, Crc.checksum, absorb_congr hwidth hrefin hpoly, hwidth, hrefout, hinit, hfinal]

end Sys2Proof.Proofs
end

section
/-! PROOFS. The document's windowed algorithm (41_compute.md R74, R75, R77): a window absorbs its bytes one after the
other. -/

namespace Sys2Proof.Proofs

open Sys2Proof.Machine Sys2Proof.Claims

/-! ## Windows -/

/-- What is absorbed depends on the bits absorbed alone. -/
theorem absorbBits_congr_bits {e f : Word} {k : Nat} (W : Nat) (P a : Word)
    (h : ∀ i, i < k → e.getLsbD i = f.getLsbD i) : Crc.absorbBits W P e k a = Crc.absorbBits W P f k a := by
  induction k generalizing a with
  | zero => rfl
  | succ k ih =>
    rw [Crc.absorbBits, Crc.absorbBits, h k (Nat.lt_succ_self k), ih _ fun i hi => h i (Nat.lt_succ_of_lt hi)]

/-- The high bits of a longer message are absorbed first. -/
theorem absorbBits_add (W : Nat) (P e a : Word) (n k : Nat) :
    Crc.absorbBits W P e (n + k) a = Crc.absorbBits W P e k (Crc.absorbBits W P (e >>> k) n a) := by
  induction n generalizing a with
  | zero => rw [Nat.zero_add, Crc.absorbBits]
  | succ n ih =>
    rw [Nat.succ_add, Crc.absorbBits, Crc.absorbBits, ih, BitVec.getLsbD_ushiftRight, Nat.add_comm k n]

theorem window_concat (rin : Bool) (ds : List Byte) (d : Byte) :
    Crc.window rin (ds ++ [d]) = (Crc.window rin ds <<< 8) ||| Crc.inputByte rin d := by
  rw [Crc.window, List.foldl_append, List.foldl_cons, List.foldl_nil, Crc.window]

/-- A window has 8 bits a byte. -/
theorem clearAbove_window (rin : Bool) (ds : List Byte) : ClearAbove (8 * ds.length) (Crc.window rin ds) := by
  induction ds using List.reverseRecOn with
  | nil => exact fun i _ => BitVec.getLsbD_zero
  | append_singleton ds d ih =>
    intro i hi
    rw [List.length_append, List.length_singleton] at hi
    rw [window_concat, BitVec.getLsbD_or, BitVec.getLsbD_shiftLeft, ih (i - 8) (by omega),
      clearAbove_inputByte rin d i (by omega), Bool.and_false, Bool.or_self]

/-- The byte last pushed is the low byte of the window. -/
theorem window_concat_getLsbD_low (rin : Bool) (ds : List Byte) (d : Byte) {i : Nat} (hi : i < 8) :
    (Crc.window rin (ds ++ [d])).getLsbD i = (Crc.inputByte rin d).getLsbD i := by
  rw [window_concat, BitVec.getLsbD_or, BitVec.getLsbD_shiftLeft]
  simp [hi]

/-- The bytes before it are the window above that byte, as long as they fit in the word. -/
theorem window_concat_ushiftRight (rin : Bool) {ds : List Byte} (d : Byte) {i : Nat} (hi : i + 8 < 32) :
    (Crc.window rin (ds ++ [d]) >>> 8).getLsbD i = (Crc.window rin ds).getLsbD i := by
  have hplace : 8 + i - 8 = i := by omega
  have h32 : 8 + i < 32 := by omega
  rw [BitVec.getLsbD_ushiftRight, window_concat, BitVec.getLsbD_or, BitVec.getLsbD_shiftLeft, hplace,
    clearAbove_inputByte rin d (8 + i) (by omega)]
  simp [h32]

/-- Absorbing the bits of a window is absorbing its bytes (20_memory.md R35). -/
theorem absorbBits_window (p : Crc.Params) (ds : List Byte) (hlen : 8 * ds.length ≤ 32) (a : Word) :
    Crc.absorbBits p.width p.poly (Crc.window p.refin ds) (8 * ds.length) a = Crc.absorb p a ds := by
  induction ds using List.reverseRecOn with
  | nil => rfl
  | append_singleton ds d ih =>
    rw [List.length_append, List.length_singleton] at hlen ⊢
    have hhigh : Crc.absorbBits p.width p.poly (Crc.window p.refin (ds ++ [d]) >>> 8) (8 * ds.length) a =
        Crc.absorb p a ds := by
      rw [← ih (by omega)]
      exact absorbBits_congr_bits _ _ _ fun i hi => window_concat_ushiftRight _ _ (by omega)
    rw [Nat.mul_add, Nat.mul_one, absorbBits_add, hhigh, absorb_append]
    exact absorbBits_congr_bits _ _ _ fun i hi => window_concat_getLsbD_low _ _ _ hi

/-- A short window, aligned to the top and followed by 8 steps a byte, absorbs its bytes (41_compute.md R77). -/
theorem absorbShortWindow_eq_absorb (p : Crc.Params) (ds : List Byte) (hwidth : p.width ≤ 32) (hdiv : 8 ∣ p.width)
    (hlen : ds.length ≤ p.width / 8) (a : Word) :
    Crc.absorbShortWindow p.width p.poly p.refin a ds = Crc.absorb p a ds := by
  have hshift : 8 * (p.width / 8 - ds.length) = p.width - 8 * ds.length := by omega
  rw [← absorbBits_window p ds (by omega), absorbBits_eq_steps p.poly _ a (by omega) hwidth,
    and_mask_of_clearAbove (clearAbove_window p.refin ds), Crc.absorbShortWindow, hshift]

/-- A whole window is one aligned to the top (41_compute.md R75). -/
theorem absorbWindow_eq_absorb (p : Crc.Params) (ds : List Byte) (hwidth : p.width ≤ 32)
    (hlen : 8 * ds.length = p.width) (a : Word) :
    Crc.absorbWindow p.width p.poly p.refin a ds = Crc.absorb p a ds := by
  have hshift : p.width / 8 - ds.length = 0 := by omega
  have hzero : Crc.window p.refin ds <<< 0 = Crc.window p.refin ds := BitVec.shiftLeft_zero _
  rw [← absorbShortWindow_eq_absorb p ds hwidth ⟨_, hlen.symm⟩ (by omega), Crc.absorbShortWindow, hshift, Nat.mul_zero,
    hzero, hlen, Crc.absorbWindow]

/-- The windows absorb the message as far as they go. -/
theorem absorbWindows_eq_absorb (p : Crc.Params) (m : List Byte) (hwidth : p.width ≤ 32) (hdiv : 8 ∣ p.width) (j : Nat)
    (hj : j * (p.width / 8) ≤ m.length) :
    Crc.absorbWindows p m j = Crc.absorb p (p.init &&& Crc.mask p.width) (m.take (j * (p.width / 8))) := by
  induction j with
  | zero => rw [Nat.zero_mul, List.take_zero]; rfl
  | succ j ih =>
    rw [Nat.succ_mul] at hj ⊢
    have hlen : ((m.drop (j * (p.width / 8))).take (p.width / 8)).length = p.width / 8 := by
      rw [List.length_take, List.length_drop]
      omega
    rw [Crc.absorbWindows, absorbWindow_eq_absorb p _ hwidth (by rw [hlen]; omega), ih (by omega), List.take_add,
      absorb_append]

/-! ## The statements -/

theorem width_le_dvd_of_mem {W : Nat} (h : W ∈ [8, 16, 24, 32]) : W ≤ 32 ∧ 8 ∣ W := by
  have hall : ∀ W ∈ [8, 16, 24, 32], W ≤ 32 ∧ 8 ∣ W := by decide
  exact hall W h

/-- Settles O50: where the windows come out even they absorb the whole message. -/
theorem windowedAlgorithmAgrees : Obligations.WindowedAlgorithmAgrees := by
  intro p m hmem hdvd
  obtain ⟨hwidth, hdiv⟩ := width_le_dvd_of_mem hmem
  have hall : m.length / (p.width / 8) * (p.width / 8) = m.length := Nat.div_mul_cancel hdvd
  rw [Crc.checksumWindowed, absorbWindows_eq_absorb p m hwidth hdiv _ hall.le, hall, List.take_length, Crc.checksum,
    Crc.finalize]

/-- Settles O51: the bytes left over are fewer than a window holds. -/
theorem shortLastWindowIsAlignedToTheTop : Obligations.ShortLastWindowIsAlignedToTheTop := by
  intro p m hmem B
  obtain ⟨hwidth, hdiv⟩ := width_le_dvd_of_mem hmem
  have hpos : 0 < B := by
    have hall : ∀ W ∈ [8, 16, 24, 32], 0 < W / 8 := by decide
    exact hall p.width hmem
  have hle : m.length / B * B ≤ m.length := Nat.div_mul_le_self ..
  have hrest : (m.drop (B * (m.length / B))).length ≤ B := by
    rw [List.length_drop, ← Nat.mod_eq_sub_mul_div]
    exact (Nat.mod_lt _ hpos).le
  rw [absorbShortWindow_eq_absorb p _ hwidth hdiv hrest, absorbWindows_eq_absorb p m hwidth hdiv _ hle, Nat.mul_comm B]
  have hsplit := absorb_append p (p.init &&& Crc.mask p.width) (m.take (m.length / B * B)) (m.drop (m.length / B * B))
  rw [List.take_append_drop] at hsplit
  rw [Crc.checksum, hsplit]

end Sys2Proof.Proofs
end

section
/-! PROOFS. The running CRC as a remainder (41_compute.md R78): one step multiplies by `x`, adds the message bit at
`x^W` and takes the generator away where the feedback is 1. -/

namespace Sys2Proof.Proofs

open Sys2Proof.Machine Sys2Proof.Claims
open Polynomial

/-! ## Bits as coefficients -/

/-- A bit as an element of the two-element field. -/
def bitCoeff (b : Bool) : ZMod 2 := if b then 1 else 0

@[simp] theorem bitCoeff_false : bitCoeff false = 0 := rfl

@[simp] theorem bitCoeff_xor (a b : Bool) : bitCoeff (a ^^ b) = bitCoeff a + bitCoeff b := by
  cases a <;> cases b <;> decide

@[simp] theorem bitCoeff_and (a b : Bool) : bitCoeff (a && b) = bitCoeff a * bitCoeff b := by
  cases a <;> cases b <;> decide

theorem bit_eq_C (b : Bool) : (if b then 1 else 0 : (ZMod 2)[X]) = C (bitCoeff b) := by
  cases b <;> simp [bitCoeff]

theorem coeff_polyOf (n : Nat) (v : Word) (k : Nat) :
    (polyOf n v).coeff k = if k < n then bitCoeff (v.getLsbD k) else 0 := by
  have hterm : ∀ i, (if v.getLsbD i then X ^ i else 0 : (ZMod 2)[X]).coeff k =
      if k = i then bitCoeff (v.getLsbD i) else 0 := by
    intro i
    cases v.getLsbD i <;> simp [bitCoeff, coeff_X_pow]
  rw [polyOf, finsetSum_coeff, Finset.sum_congr rfl fun i _ => hterm i, Finset.sum_ite_eq]
  simp

theorem degree_polyOf_lt (n : Nat) (v : Word) : (polyOf n v).degree < n := by
  rw [degree_lt_iff_coeff_zero]
  intro k hk
  rw [coeff_polyOf, if_neg (not_lt.mpr hk)]

theorem polyOf_and_mask (n : Nat) (v : Word) : polyOf n (v &&& Crc.mask n) = polyOf n v := by
  ext k
  rw [coeff_polyOf, coeff_polyOf, Crc.and_mask_getLsbD]
  by_cases hk : k < n <;> simp [hk]

/-! ## The generator -/

theorem generator_monic (W : Nat) (P : Word) : (generator W P).Monic := monic_X_pow_add (degree_polyOf_lt W P)

theorem degree_generator (W : Nat) (P : Word) : (generator W P).degree = W :=
  (degree_add_eq_left_of_degree_lt (by rw [degree_X_pow]; exact degree_polyOf_lt W P)).trans (degree_X_pow W)

/-- One step: the register moves up by one place, the message bit enters at `x^W`, and the generator is added where the
feedback is 1, which clears `x^W`. -/
theorem polyOf_crcStep {W : Nat} (P a : Word) (b : Bool) (hlo : 1 ≤ W) (hhi : W ≤ 32) :
    polyOf W (Crc.crcStep W P a b) + C (bitCoeff (a.getLsbD (W - 1) ^^ b)) * generator W P =
      polyOf W a * X + C (bitCoeff b) * X ^ W := by
  have htwo : ∀ x y : ZMod 2, x + y + y = x := by decide
  have hpos : 0 < W := hlo
  ext k
  rw [generator, coeff_add, coeff_add, coeff_C_mul, coeff_C_mul, coeff_add, coeff_X_pow, coeff_polyOf, coeff_polyOf,
    Crc.crcStep_getLsbD]
  cases k with
  | zero =>
    have hne : 0 ≠ W := hpos.ne
    simpa [hpos, hne] using htwo 0 _
  | succ k =>
    rw [coeff_mul_X, coeff_polyOf]
    rcases lt_trichotomy (k + 1) W with hlt | rfl | hgt
    · have hne : k + 1 ≠ W := hlt.ne
      have h32 : k + 1 < 32 := by omega
      have hk : k < W := by omega
      simpa [hlt, hne, h32, hk] using htwo _ _
    · simp
    · have hnot : ¬k + 1 < W := not_lt.mpr hgt.le
      have hne : k + 1 ≠ W := hgt.ne'
      have hk : ¬k < W := by omega
      simp [hnot, hne, hk]

/-! ## A bit string -/

theorem bitsPoly_concat (bs : List Bool) (b : Bool) :
    bitsPoly (bs ++ [b]) = bitsPoly bs * X + C (bitCoeff b) := by
  rw [bitsPoly, List.foldl_append, List.foldl_cons, List.foldl_nil, bit_eq_C, bitsPoly]

/-- The register after some bits, up to a multiple of the generator. -/
theorem generator_dvd_foldl {W : Nat} (P a : Word) (bs : List Bool) (hlo : 1 ≤ W) (hhi : W ≤ 32) :
    generator W P ∣ polyOf W a * X ^ bs.length + bitsPoly bs * X ^ W - polyOf W (bs.foldl (Crc.crcStep W P) a) := by
  induction bs using List.reverseRecOn with
  | nil => simp [bitsPoly]
  | append_singleton bs b ih =>
    obtain ⟨q, hq⟩ := ih
    have hstep := polyOf_crcStep P (bs.foldl (Crc.crcStep W P) a) b hlo hhi
    rw [bitsPoly_concat, List.length_append, List.length_singleton, List.foldl_append, List.foldl_cons, List.foldl_nil]
    refine ⟨q * X + C (bitCoeff ((bs.foldl (Crc.crcStep W P) a).getLsbD (W - 1) ^^ b)), ?_⟩
    linear_combination X * hq - hstep

/-! ## A message -/

theorem absorb_eq_foldl_entryBits (p : Crc.Params) (a : Word) (m : List Byte) :
    Crc.absorb p a m = (m.flatMap (entryBits p.refin)).foldl (Crc.crcStep p.width p.poly) a := by
  rw [Crc.absorb, List.foldl_flatMap]
  congr 1
  funext a d
  exact bytesEnterBitByBit p.width p.poly a p.refin d

theorem length_flatMap_entryBits (rin : Bool) (m : List Byte) : (m.flatMap (entryBits rin)).length = 8 * m.length := by
  induction m with
  | nil => rfl
  | cons d ds ih =>
    have hbyte : (entryBits rin d).length = 8 := by cases rin <;> rfl
    rw [List.flatMap_cons, List.length_append, ih, hbyte, List.length_cons]
    omega

/-- Settles O56: the register is congruent to the polynomial of the initial value and the message, and its degree is
below that of the generator. -/
theorem runningCrcIsThePolynomialRemainder : Obligations.RunningCrcIsThePolynomialRemainder := by
  intro p m hlo hhi
  have hmonic := generator_monic p.width p.poly
  refine ⟨hmonic, ?_⟩
  have hdvd := generator_dvd_foldl p.poly (p.init &&& Crc.mask p.width) (m.flatMap (entryBits p.refin)) hlo hhi
  rw [← absorb_eq_foldl_entryBits, length_flatMap_entryBits, polyOf_and_mask] at hdvd
  rw [modByMonic_eq_of_dvd_sub hmonic hdvd]
  refine ((modByMonic_eq_self_iff hmonic).mpr ?_).symm
  rw [degree_generator]
  exact degree_polyOf_lt _ _

end Sys2Proof.Proofs
end
